-- ==== Sys2Proof/Word.lean ====
section
/-! DEFINITION. The bit-vector types of `fixed_point_pid_controller`: words, bytes, the command word and
the response word (00_scope.md R4 and 6.1). Nothing but the types: every operation on them stands in a
file a repair may change. -/

namespace Sys2Proof

/-- A *word*: 32 bits, the width of every register, operand and result (R4 `XLEN`, R10, R11). -/
abbrev Word := BitVec 32

/-- A byte of a stored command or response (R32). -/
abbrev Byte := BitVec 8

/-- A command word: 72 bits, `OP[71:68] R[67:64] A[63:32] B[31:0]` (R4 `CMD_BITS`, R40). -/
abbrev Command := BitVec 72

/-- A response word: 33 bits, `ok` in bit 32 and `result` in bits 31..0 (R4 `RSP_BITS`, R50). -/
abbrev ResponseWord := BitVec 33

/-- The 4-bit `R` field of a command word (R40). Only 0 to 7 name a register (R10, R42). -/
abbrev RegIndex := BitVec 4

end Sys2Proof
end

