-- ==== Sys2Proof/Config.lean ====
section
/-! DEFINITION. What is fixed for the machine and what the spec leaves open (00_scope.md R4). The only open
parameter that reaches a result is `DIV0`; it is an opaque constant, so no proof can see its value. -/

namespace Sys2Proof.Config

/-- `FRAC_BITS` (R4): the shift count of `FromInt`, `Mul` and `Div`. -/
abbrev fracBits : Nat := 16

/-- `2 ^ FRAC_BITS`: the raw value of 1.0 (R4, R11). -/
abbrev one : Int := 65536

/-- `DIV0` (R4, R75; 92_eei_decisions.md D11): the unspecified word a division by zero delivers.
`div0 n a` is the word delivered by the draw numbered `n` when the dividend is `a`. The draw number makes
two evaluations independent ("a fresh draw each time"); the dividend is an argument so that nothing says two
dividends give one word. FREE VALUE: no body, no law. Assumption log 1. -/
opaque div0 : Nat → Word → Word

end Sys2Proof.Config
end

