-- ==== Sys2Proof/Machine/Flags.lean ====
section
/-! DEFINITION. There is no flag, condition code or status register (10_state.md R21). What the block decides
by comparison is here: the signed compares (40_fixed_point_primitives.md R64) and the output clamp
(41_pid_controller.md R90). -/

namespace Sys2Proof.Machine

/-- `a >s b` (R64): exact, on the signed raw values. -/
def gts (a b : Word) : Bool := decide (b.toInt < a.toInt)

/-- `a <s b` (R64). -/
def lts (a b : Word) : Bool := decide (a.toInt < b.toInt)

/-- `Clamp(s, Min, Max)` (R90): the test against `Max` is made first; equality does not clamp. -/
def clamp (s lo hi : Word) : Word :=
  if gts s hi then hi
  else if lts s lo then lo
  else s

end Sys2Proof.Machine
end

