-- ==== Sys2Proof/Syntax.lean ====
section
/-! DEFINITION. The eight commands of the command set `FXPID-CMD-1` (30_encoding.md R40, R43), one
constructor for each row of spec/opcode_table.json. -/

namespace Sys2Proof

/-- A command with its operands, used exactly as they stand in the word (R42). `r` is the whole 4-bit `R`
field of `WR` and `RD`: R82 and R83 themselves say what an index of 8 or more does. -/
inductive Instr where
  /-- `INIT` (R81): zero every field of the state record. -/
  | init
  /-- `WR r, v` (R82): assign one field of the state record. -/
  | wr (r : RegIndex) (v : Word)
  /-- `RD r` (R83): read one field of the state record. -/
  | rd (r : RegIndex)
  /-- `CALC sp, pv` (R84): one step of the PID control law; `sp` the setpoint, `pv` the measured value. -/
  | calculate (sp pv : Word)
  /-- `FROMINT n` (R76): `n` is a plain signed 32-bit integer, not a Q16.16 number. -/
  | fromint (n : Word)
  /-- `FRAC a` (R77). -/
  | frac (a : Word)
  /-- `MUL a, b` (R78). -/
  | mul (a b : Word)
  /-- `DIV a, b` (R79): `a` the dividend, `b` the divisor. -/
  | div (a b : Word)
  deriving DecidableEq, Repr

end Sys2Proof
end

