-- ==== Sys2Proof/WellFormed.lean ====
section
/-! DEFINITION. Which instructions the encoding can carry (30_encoding.md R41, R42, R48). -/

namespace Sys2Proof

/-- The index names a register: `R[3] = 0` (R42; R48 (b): indices 8 to 15 are reserved). -/
def RegIndex.wellFormed (r : RegIndex) : Bool := r.toNat < 8

/-- The one check on an instruction: the register index of `WR` and of `RD` is 0 to 7. Every other operand
is a whole 32-bit word, and every pattern of it is legal (R42). -/
def Instr.wellFormed : Instr → Bool
  | .init => true
  | .wr r _ => RegIndex.wellFormed r
  | .rd r => RegIndex.wellFormed r
  | .calculate _ _ => true
  | .fromint _ => true
  | .frac _ => true
  | .mul _ _ => true
  | .div _ _ => true

end Sys2Proof
end

