-- ==== Sys2Proof/Decode.lean ====
section
/-! DEFINITION. The decoder, total on every command word and on every byte stream, and the encoder
(30_encoding.md R40 to R51; 20_memory.md R32, R33; spec/opcode_table.json). -/

namespace Sys2Proof

/-! ### The fields of a command word (R40) -/

/-- `OP = cmd[71:68]`. -/
def opField (w : Command) : BitVec 4 := w.extractLsb' 68 4

/-- `R = cmd[67:64]`. -/
def rField (w : Command) : RegIndex := w.extractLsb' 64 4

/-- `A = cmd[63:32]`. -/
def aField (w : Command) : Word := w.extractLsb' 32 32

/-- `B = cmd[31:0]`. -/
def bField (w : Command) : Word := w.extractLsb' 0 32

/-- The command word of four fields: `{OP, R, A, B}` (R40). -/
def pack (op : BitVec 4) (r : RegIndex) (a b : Word) : Command := op ++ r ++ a ++ b

/-! ### The opcode table (R44) -/

/-- The eight operations, without their operands. -/
inductive Op where
  | init | wr | rd | calculate | fromint | frac | mul | div
  deriving DecidableEq, Repr

/-- A row of the opcode table: the operation, its mask and its match. -/
structure Row where
  op : Op
  mask : Command
  pattern : Command
  deriving DecidableEq, Repr

/-- The opcode table, row for row as R44 and spec/opcode_table.json give it. -/
def opcodeTable : List Row :=
  [ ⟨.init,    0xFFFFFFFFFFFFFFFFFF#72, 0x100000000000000000#72⟩,
    ⟨.wr,      0xF800000000FFFFFFFF#72, 0x200000000000000000#72⟩,
    ⟨.rd,      0xF8FFFFFFFFFFFFFFFF#72, 0x300000000000000000#72⟩,
    ⟨.calculate,    0xFF0000000000000000#72, 0x400000000000000000#72⟩,
    ⟨.fromint, 0xFF00000000FFFFFFFF#72, 0x800000000000000000#72⟩,
    ⟨.frac,    0xFF00000000FFFFFFFF#72, 0x900000000000000000#72⟩,
    ⟨.mul,     0xFF0000000000000000#72, 0xA00000000000000000#72⟩,
    ⟨.div,     0xFF0000000000000000#72, 0xB00000000000000000#72⟩ ]

/-- "A word `cmd` is the command of a row when `(cmd AND mask) = match`" (R44). -/
def Row.covers (row : Row) (w : Command) : Bool := (w &&& row.mask) == row.pattern

/-- The row's free fields, taken from the word (R44, R51). -/
def Op.instr (op : Op) (w : Command) : Instr :=
  match op with
  | .init => .init
  | .wr => .wr (rField w) (aField w)
  | .rd => .rd (rField w)
  | .calculate => .calculate (aField w) (bField w)
  | .fromint => .fromint (aField w)
  | .frac => .frac (aField w)
  | .mul => .mul (aField w) (bField w)
  | .div => .div (aField w) (bField w)

/-! ### The decoder -/

/-- Why bits are no instruction. -/
inductive DecodeError where
  /-- The word matches no row of the opcode table: `IllegalCommand` (R48, R101). -/
  | illegalCommand
  /-- A byte stream that is not a whole number of 9-byte commands is not a program (R33). -/
  | notWholeCommands
  deriving DecidableEq, Repr

/-- Decoding (R51): the command of the row that covers the word, else illegal. Total; reads no state. -/
def decode (w : Command) : Except DecodeError Instr :=
  match opcodeTable.find? (fun row => row.covers w) with
  | some row => .ok (row.op.instr w)
  | none => .error .illegalCommand

/-- The word is one of the eight commands (R48, R50). -/
def isLegal (w : Command) : Bool :=
  match decode w with
  | .ok _ => true
  | .error _ => false

/-- The opcode of an operation (R43). -/
def Op.code : Op → BitVec 4
  | .init => 0x1#4
  | .wr => 0x2#4
  | .rd => 0x3#4
  | .calculate => 0x4#4
  | .fromint => 0x8#4
  | .frac => 0x9#4
  | .mul => 0xA#4
  | .div => 0xB#4

/-- The operation of an instruction. -/
def Instr.op : Instr → Op
  | .init => .init
  | .wr _ _ => .wr
  | .rd _ => .rd
  | .calculate _ _ => .calculate
  | .fromint _ => .fromint
  | .frac _ => .frac
  | .mul _ _ => .mul
  | .div _ _ => .div

/-! ### The encoder (the formats N, W, G, U, T of R41) -/

/-- The command word of an instruction, in its format (R41): a field the format shows as zeros is zero. -/
def encode : Instr → Command
  | .init => pack Op.init.code 0#4 0#32 0#32
  | .wr r v => pack Op.wr.code r v 0#32
  | .rd r => pack Op.rd.code r 0#32 0#32
  | .calculate sp pv => pack Op.calculate.code 0#4 sp pv
  | .fromint n => pack Op.fromint.code 0#4 n 0#32
  | .frac a => pack Op.frac.code 0#4 a 0#32
  | .mul a b => pack Op.mul.code 0#4 a b
  | .div a b => pack Op.div.code 0#4 a b

/-! ### Commands as bytes (R32, R33) -/

/-- A stored command: 9 bytes, most significant first (R32). -/
def commandBytes (w : Command) : List Byte :=
  [ w.extractLsb' 64 8, w.extractLsb' 56 8, w.extractLsb' 48 8, w.extractLsb' 40 8, w.extractLsb' 32 8,
    w.extractLsb' 24 8, w.extractLsb' 16 8, w.extractLsb' 8 8, w.extractLsb' 0 8 ]

/-- The command word of nine bytes, the first the most significant (R32). -/
def commandOfBytes (b0 b1 b2 b3 b4 b5 b6 b7 b8 : Byte) : Command :=
  b0 ++ b1 ++ b2 ++ b3 ++ b4 ++ b5 ++ b6 ++ b7 ++ b8

/-- The commands of a byte stream: command `k` is bytes `9k` to `9k + 8`; any other length is refused
(R33). -/
def commandsOfBytes : List Byte → Except DecodeError (List Command)
  | [] => .ok []
  | b0 :: b1 :: b2 :: b3 :: b4 :: b5 :: b6 :: b7 :: b8 :: rest =>
    match commandsOfBytes rest with
    | .ok ws => .ok (commandOfBytes b0 b1 b2 b3 b4 b5 b6 b7 b8 :: ws)
    | .error e => .error e
  | _ => .error .notWholeCommands

/-- The instruction at the head of a byte stream, with the rest of the stream. -/
def decodeBytes : List Byte → Except DecodeError (Instr × List Byte)
  | b0 :: b1 :: b2 :: b3 :: b4 :: b5 :: b6 :: b7 :: b8 :: rest =>
    match decode (commandOfBytes b0 b1 b2 b3 b4 b5 b6 b7 b8) with
    | .ok i => .ok (i, rest)
    | .error e => .error e
  | _ => .error .notWholeCommands

/-! ### The host's reading of a table row -/

/-- The command word of a row's bits as spec/opcode_table.json numbers them: bit 0 is the least significant
bit of the one 72-bit word, and the bits above `nbits` are 0. -/
def tableWord (nbits w : Nat) : Command := BitVec.ofNat 72 (w % 2 ^ nbits)

/-- The instruction the decoder reads from a row's bits, laid out as the nine bytes of R32. -/
def decodeTableWord (nbits w : Nat) : Option Instr :=
  match decodeBytes (commandBytes (tableWord nbits w)) with
  | .ok (i, _) => some i
  | .error _ => none

end Sys2Proof
end

