-- ==== Sys2Proof/Machine/Arith.lean ====
section
/-! DEFINITION. The Q16.16 arithmetic of 40_fixed_point_primitives.md. Every function computes on unbounded
integers and narrows with `wrap32` at exactly the places the rules say, nowhere else (R60). `S(v)` of the
spec is `v.toInt`, `U(v)` is `v.toNat` (00_scope.md 6.1). -/

namespace Sys2Proof.Machine

/-- `wrap32`: the low 32 bits of an integer in two's complement (00_scope.md 6.1; R65, R66). -/
def wrap32 (z : Int) : Word := BitVec.ofInt 32 z

/-- `asr(z, k)`: `floor(z / 2^k)` (00_scope.md 6.1); Lean's `/` on `Int` rounds down for a positive
divisor. -/
def asr (z : Int) (k : Nat) : Int := z / 2 ^ k

/-- `a +32 b` (R62). -/
def add32 (a b : Word) : Word := wrap32 (a.toInt + b.toInt)

/-- `a -32 b` (R63). -/
def sub32 (a b : Word) : Word := wrap32 (a.toInt - b.toInt)

/-- `FromInt(n)` (R67): no range check; what does not fit is dropped. -/
def fromInt (n : Word) : Word := wrap32 (n.toInt * Config.one)

/-- `Frac(a)` (R71). -/
def frac (a : Word) : Word := a &&& 0x0000FFFF#32

/-- `Mul(a, b)` (R72): exact signed product, arithmetic shift right by 16 (floor), low 32 bits. -/
def mul (a b : Word) : Word := wrap32 (asr (a.toInt * b.toInt) Config.fracBits)

/-- `Div(a, b)` for `b ≠ 0` (R74): the dividend shifted left by 16, divided by the unwidened divisor, the
quotient rounded toward zero (decision D9), low 32 bits. A zero divisor is `divide` of Machine/Ops.lean. -/
def divNonzero (a b : Word) : Word := wrap32 (Int.tdiv (a.toInt * Config.one) b.toInt)

end Sys2Proof.Machine
end

