-- ==== Sys2Proof/Machine/State.lean ====
section
/-! DEFINITION. The state of one block instance: the eight registers of the state record (10_state.md R10),
which are the whole architectural state, and the two ports the host sees, held as plain data so that one
deterministic step can run (00_scope.md R5; 70_reset_and_hazards.md R134). Plain data throughout. -/

namespace Sys2Proof.Machine

/-- The names of the eight registers, in the order of R10 (index 0 to 7). -/
inductive Reg where
  | kp | ki | kd | dt | integral | prevError | max | min
  deriving DecidableEq, Repr

/-- The state record (R10): eight 32-bit Q16.16 registers. -/
structure Regs where
  /-- `Kp = x[0]`, the proportional gain (R12). -/
  kp : Word
  /-- `Ki = x[1]`, the integral gain (R13). -/
  ki : Word
  /-- `Kd = x[2]`, the derivative gain (R14). -/
  kd : Word
  /-- `Dt = x[3]`, the sampling interval (R15). -/
  dt : Word
  /-- `Integral = x[4]`, the wrapping accumulator (R16; 90_conflicts.md C1). -/
  integral : Word
  /-- `PrevError = x[5]`, the error of the previous `CALC` (R17). -/
  prevError : Word
  /-- `Max = x[6]`, the upper output bound (R18). -/
  max : Word
  /-- `Min = x[7]`, the lower output bound (R19). -/
  min : Word
  deriving DecidableEq, Repr

/-- A response `{ok, result}` (R50). -/
structure Response where
  ok : Bool
  result : Word
  deriving DecidableEq, Repr

/-- What the host may do to the block (R134). -/
inductive HostEvent where
  /-- Present one 72-bit command word. -/
  | command (w : Command)
  /-- Assert hardware reset. `inFlight` is the command accepted but not yet responded to when reset is
  asserted, if there is one: R103 drops it. -/
  | reset (inFlight : Option Command)
  deriving DecidableEq, Repr

/-- The state of one block instance and of its two ports. -/
structure State where
  /-- The architectural state: the eight registers, "and nothing else" (R10, R22). -/
  regs : Regs
  /-- The host's events the block has taken so far, oldest first. The index `pc` of R20 is its length.
  Model's own (R5: the program text is not state of the block). -/
  done : List HostEvent
  /-- The host's events not yet taken, oldest first. Model's own. -/
  pending : List HostEvent
  /-- The responses given so far, in command order (R6, R36). Model's own. -/
  responses : List Response
  /-- How many zero-divisor draws have been made: the argument that makes the next one fresh (R75).
  Model's own. -/
  draws : Nat
  deriving DecidableEq, Repr

/-- The faults: none. "The block raises no exception, trap, abort or fault, for any operand values of any
legal command" (R100), and an illegal command is answered, not stopped on (R101). Safe: there is no fault a
proof could lean on. -/
inductive Fault where
  deriving DecidableEq, Repr

/-- The refusals. Nothing raises one: every instruction has its meaning. -/
inductive Refusal where
  /-- The instruction has no meaning in the model. Raised by nothing. Safe. -/
  | notModelled (mnemonic : String)
  deriving DecidableEq, Repr

/-- All eight registers zero: the state after `INIT` (R81) and after hardware reset (R23, R120). -/
def Regs.zero : Regs := ⟨0#32, 0#32, 0#32, 0#32, 0#32, 0#32, 0#32, 0#32⟩

/-- Right after reset: all eight registers zero (R23; decision D8); the host has sent nothing, nothing has
been answered, no draw has been made (assumption log 2, 3). -/
def State.reset : State :=
  { regs := Regs.zero, done := [], pending := [], responses := [], draws := 0 }

end Sys2Proof.Machine
end

