-- ==== Sys2Proof/Machine/Operands.lean ====
section
/-! DEFINITION. The operand forms. The operands `A` and `B` are whole words used as they stand (30_encoding.md
R42), so the only form with a rule of its own is the register index of `WR` and `RD` (20_memory.md R31,
R35). -/

namespace Sys2Proof.Machine

/-- The register an index names: 0 to 7 in the order of R10; 8 to 15 name none (R35, R48). -/
def Reg.ofIndex : RegIndex → Option Reg
  | 0#4 => some .kp
  | 1#4 => some .ki
  | 2#4 => some .kd
  | 3#4 => some .dt
  | 4#4 => some .integral
  | 5#4 => some .prevError
  | 6#4 => some .max
  | 7#4 => some .min
  | _ => none

/-- The index of a register (R10). -/
def Reg.index : Reg → RegIndex
  | .kp => 0#4
  | .ki => 1#4
  | .kd => 2#4
  | .dt => 3#4
  | .integral => 4#4
  | .prevError => 5#4
  | .max => 6#4
  | .min => 7#4

end Sys2Proof.Machine
end

