-- ==== Sys2Proof/Machine/Ops.lean ====
section
/-! DEFINITION. The shared operations: reading and writing a register, responding, the one refusal of the
block (`IllegalCommand`), dividing, hardware reset, and taking the host's next event. There is no memory
(20_memory.md R30), no trap entry (60_exceptions.md R104) and no return from one (R105). -/

namespace Sys2Proof.Machine

/-! ### The register file (R10, R34) -/

/-- `x[i]` (00_scope.md 6.2). No register is hardwired and none has a read side effect (R10, R34). -/
def Regs.read (x : Regs) : Reg → Word
  | .kp => x.kp
  | .ki => x.ki
  | .kd => x.kd
  | .dt => x.dt
  | .integral => x.integral
  | .prevError => x.prevError
  | .max => x.max
  | .min => x.min

/-- `x[i] <- v` (00_scope.md 6.2): exactly the named register (R34). -/
def Regs.write (x : Regs) (r : Reg) (v : Word) : Regs :=
  match r with
  | .kp => { x with kp := v }
  | .ki => { x with ki := v }
  | .kd => { x with kd := v }
  | .dt => { x with dt := v }
  | .integral => { x with integral := v }
  | .prevError => { x with prevError := v }
  | .max => { x with max := v }
  | .min => { x with min := v }

def State.readReg (s : State) (r : Reg) : Word := s.regs.read r

def State.writeReg (s : State) (r : Reg) (v : Word) : State := { s with regs := s.regs.write r v }

/-! ### Responding (R50) and the one refusal (R101) -/

/-- `respond(ok, r)` (00_scope.md 6.2): the command's one response, after all earlier ones (R36, R50). -/
def State.respond (s : State) (ok : Bool) (r : Word) : State :=
  { s with responses := s.responses ++ [⟨ok, r⟩] }

/-- `raise IllegalCommand` (R101): no register changes, `respond(0, 0x00000000)`, nothing else is recorded.
It saves no state, changes no mode and transfers control nowhere (R104); there is nothing to return from
(R105). -/
def raiseIllegalCommand (s : State) : State := s.respond false 0#32

/-- The response as the 33-bit word `{ok, result}` (R50). -/
def Response.word (r : Response) : ResponseWord := BitVec.ofBool r.ok ++ r.result

/-- A stored response: 5 bytes, `0x01` or `0x00` and then the result, most significant first (R32). -/
def Response.bytes (r : Response) : List Byte :=
  [ if r.ok then 0x01#8 else 0x00#8, r.result.extractLsb' 24 8, r.result.extractLsb' 16 8,
    r.result.extractLsb' 8 8, r.result.extractLsb' 0 8 ]

/-! ### Division (R74, R75) -/

/-- One evaluation of `Div(a, b)`: the quotient and the state after. A zero divisor delivers a fresh
unspecified word and changes no register (R75); the state only counts the draw, so that the next one is
another. -/
def divide (a b : Word) (s : State) : Word × State :=
  if b = 0#32 then (Config.div0 s.draws a, { s with draws := s.draws + 1 })
  else (divNonzero a b, s)

/-! ### The host's side (R20, R36, R134) -/

/-- The list of everything the host sends in this run: the program of R52, hardware resets included. -/
def State.program (s : State) : List HostEvent := s.done ++ s.pending

/-- The index `pc` of R20 into `program`: how many of its entries have been taken. -/
def State.pc (s : State) : Nat := s.done.length

/-- The block takes the host's next event. -/
def State.accept (s : State) : State :=
  match s.pending with
  | [] => s
  | e :: rest => { s with done := s.done ++ [e], pending := rest }

/-- The host presents a list of command words after what it has already sent (R52). -/
def State.present (s : State) (p : List Command) : State :=
  { s with pending := s.pending ++ p.map .command }

/-- The command words among the host's events, in order. A command that reset caught in flight is not among
them: it has no effect and gets no response (R103). -/
def commandsOf (es : List HostEvent) : List Command :=
  es.filterMap fun e => match e with
    | .command w => some w
    | .reset _ => none

/-- Hardware reset (R120): all eight registers zero, no response; a command in flight is dropped (R103). -/
def hardwareReset (s : State) : State := { s with regs := Regs.zero }

/-! ### Fetching -/

/-- What the block finds at its command port. -/
inductive Fetched where
  /-- The host has sent nothing more: the block "does nothing on its own" (R121). -/
  | idle
  /-- Hardware reset. -/
  | reset
  /-- A word that matches no row of the opcode table. -/
  | illegal
  /-- A command. -/
  | run (i : Instr)
  deriving DecidableEq, Repr

/-- The decoder at the command port: it looks at the word alone, before any register (R51, R101, R103). -/
def State.fetch (s : State) : Fetched :=
  match s.pending with
  | [] => .idle
  | .reset _ :: _ => .reset
  | .command w :: _ =>
    match decode w with
    | .ok i => .run i
    | .error _ => .illegal

end Sys2Proof.Machine
end

