-- ==== Sys2Proof/Machine/Primitives.lean ====
section
/-! DEFINITION. The four primitive commands `FROMINT`, `FRAC`, `MUL`, `DIV` (40_fixed_point_primitives.md R76
to R79): one function each, on the operands in the command word; none reads or writes a register. -/

namespace Sys2Proof.Machine

/-- The outcome of a meaning. -/
abbrev Result := Host.Outcome State Fault Refusal

/-- `FROMINT n` (R76). -/
def execFromint (n : Word) (s : State) : Result := .next (s.respond true (fromInt n))

/-- `FRAC a` (R77). -/
def execFrac (a : Word) (s : State) : Result := .next (s.respond true (frac a))

/-- `MUL a, b` (R78): `ok = 1` even when the result wrapped. -/
def execMul (a b : Word) (s : State) : Result := .next (s.respond true (mul a b))

/-- `DIV a, b` (R79): a zero divisor is not an exception and does not clear `ok`; the quotient is then the
free value of R75 (assumption log 1). -/
def execDiv (a b : Word) (s : State) : Result :=
  let q := divide a b s
  .next (q.2.respond true q.1)

end Sys2Proof.Machine
end

