-- ==== Sys2Proof/Machine/Pid.lean ====
section
/-! DEFINITION. The four commands that touch the state record: `INIT`, `WR`, `RD`, `CALC`
(41_pid_controller.md R80 to R93). -/

namespace Sys2Proof.Machine

/-- `INIT` (R81): zero every field of the state record, whatever it held. -/
def execInit (s : State) : Result := .next ({ s with regs := Regs.zero }.respond true 0#32)

/-- `WR r, v` (R82): every 32-bit value is accepted in every register; an index of 8 or more is
`IllegalCommand` and nothing is written. -/
def execWr (r : RegIndex) (v : Word) (s : State) : Result :=
  match Reg.ofIndex r with
  | some x => .next ((s.writeReg x v).respond true 0#32)
  | none => .next (raiseIllegalCommand s)

/-- `RD r` (R83): no side effect; an index of 8 or more is `IllegalCommand`. -/
def execRd (r : RegIndex) (s : State) : Result :=
  match Reg.ofIndex r with
  | some x => .next (s.respond true (s.readReg x))
  | none => .next (raiseIllegalCommand s)

/-- `CALC sp, pv` (R84), the ten steps in the document's order. Step 4 reads the `Integral` step 3 has
written; step 5 reads the old `PrevError` (R91) and, when `Dt = 0`, its quotient is the free value of R75
(R88; assumption log 1). `Integral` wraps and is not clamped (R87); `PrevError` becomes the unclamped error
whatever the output (R91). -/
def execCalc (sp pv : Word) (s : State) : Result :=
  let error := sub32 sp pv                                                          -- step 1 (R85)
  let pout := mul s.regs.kp error                                                   -- step 2 (R86)
  let s3 := s.writeReg .integral (add32 s.regs.integral (mul error s.regs.dt))      -- step 3 (R87)
  let iout := mul s3.regs.ki s3.regs.integral                                       -- step 4
  let q := divide (sub32 error s3.regs.prevError) s3.regs.dt s3                     -- step 5 (R88)
  let s5 := q.2
  let dout := mul s5.regs.kd q.1                                                    -- step 6
  let sum := add32 (add32 pout iout) dout                                           -- step 7 (R89)
  let output := clamp sum s5.regs.min s5.regs.max                                   -- step 8 (R90)
  let s9 := s5.writeReg .prevError error                                            -- step 9 (R91)
  .next (s9.respond true output)                                                    -- step 10

end Sys2Proof.Machine
end

