-- ==== Sys2Proof/Machine/Step.lean ====
section
/-! DEFINITION. One step of the block: take the host's next event and answer it completely (00_scope.md R5;
20_memory.md R34, R36; 70_reset_and_hazards.md R134). -/

namespace Sys2Proof.Machine

/-- One step. With nothing at the port the block holds its registers (R111, R121); a reset zeroes them
(R120); an illegal word is answered `{0, 0}` with no effect (R101); a command is executed (R84 and the rest).
The event taken moves from `pending` to `done`, so `pc` grows by one for every command, a rejected one
included (R20). -/
def step (s : State) : Host.Outcome State Fault Refusal :=
  match s.fetch with
  | .idle => .next s
  | .reset => .next (hardwareReset s.accept)
  | .illegal => .next (raiseIllegalCommand s.accept)
  | .run i => exec i s.accept

/-- The host presents this command word before anything else it has yet to send: the next step fetches
exactly it. Assumption log 3 says how a program comes to run from reset. -/
def State.withFetchWord (s : State) (nbits w : Nat) : State :=
  { s with pending := .command (tableWord nbits w) :: s.pending }

end Sys2Proof.Machine
end

