-- ==== Sys2Proof/Machine/HostSide.lean ====
section
/-! DEFINITION. The host-side functions `FromFloat` and `ToFloat` (40_fixed_point_primitives.md R68 to R70),
which are no commands of the block, on exact rationals (decision D13), and the real value of a word (R11). -/

namespace Sys2Proof.Machine

/-- `val(v) = S(v) / 65536`: the real number a word denotes in Q16.16 (R11). -/
def val (v : Word) : Rat := v.toInt / 65536

/-- `trunc(q)`: toward zero (00_scope.md 6.1). -/
def trunc (q : Rat) : Int := if 0 ≤ q then q.floor else q.ceil

/-- `ToFloat(a)` (R70): exact as a rational. -/
def toFloat (a : Word) : Rat := val a

/-- `FromFloat(f)` (R68): round to nearest, ties away from zero; no value where the rounded result does not
fit 32 bits (R69). -/
def fromFloat (f : Rat) : Option Word :=
  let x := f * 65536
  let t := if 0 ≤ f then trunc (x + 1 / 2) else trunc (x - 1 / 2)
  if -(2 ^ 31) ≤ t ∧ t ≤ 2 ^ 31 - 1 then some (wrap32 t) else none

end Sys2Proof.Machine
end

