-- ==== Sys2Proof/Machine/Assembler.lean ====
section
/-! DEFINITION. The assembler and the disassembler of 30_encoding.md R53 and R54, host-side: one line of text,
as a list of characters, to one command word and back. -/

namespace Sys2Proof.Machine

/-! ### Literals (R54) -/

/-- A `<word>` literal, read but not yet checked against its range. -/
inductive Literal where
  /-- Hexadecimal: the raw pattern. -/
  | hex (n : Nat)
  /-- A decimal integer: raw. -/
  | dec (n : Int)
  /-- `i(<integer>)`. -/
  | int (n : Int)
  /-- `f(<decimal>)`: the exact rational the text denotes. -/
  | float (q : Rat)
  deriving DecidableEq

/-- The word a literal gives, or none where the assembler refuses it (R54). -/
def Literal.value : Literal → Option Word
  | .hex n => if n < 2 ^ 32 then some (BitVec.ofNat 32 n) else none
  | .dec n => if -(2 ^ 31) ≤ n ∧ n ≤ 2 ^ 32 - 1 then some (wrap32 n) else none
  | .int n => if -32768 ≤ n ∧ n ≤ 32767 then some (fromInt (wrap32 n)) else none
  | .float q => fromFloat q

/-- Why a line is refused. -/
inductive AsmError where
  | unknownMnemonic | operandCount | badRegister | badLiteral | literalRange | badWord72
  deriving DecidableEq, Repr

/-! ### Characters and digits -/

def isBlank (c : Char) : Bool := c == ' ' || c == '\t' || c == '\r'

/-- The text without the blanks around it. -/
def trim (l : List Char) : List Char :=
  ((l.dropWhile isBlank).reverse.dropWhile isBlank).reverse

/-- The pieces of a text between its commas. -/
def splitCommas : List Char → List (List Char)
  | [] => [[]]
  | c :: cs =>
    if c == ',' then [] :: splitCommas cs
    else match splitCommas cs with
      | [] => [[c]]
      | w :: ws => (c :: w) :: ws

/-- The operands of a line: none, or the pieces between commas. -/
def operands (l : List Char) : List (List Char) :=
  if trim l = [] then [] else (splitCommas l).map trim

/-- A decimal digit's value. -/
def decDigit (c : Char) : Option Nat :=
  if 48 ≤ c.toNat ∧ c.toNat ≤ 57 then some (c.toNat - 48) else none

/-- A hexadecimal digit's value; the text is in lower case here. -/
def hexDigit (c : Char) : Option Nat :=
  if 97 ≤ c.toNat ∧ c.toNat ≤ 102 then some (c.toNat - 87) else decDigit c

/-- Digits in a base, most significant first, on top of `acc`. -/
def digits (digit : Char → Option Nat) (base : Nat) : Nat → List Char → Option Nat
  | acc, [] => some acc
  | acc, c :: cs =>
    match digit c with
    | some d => digits digit base (acc * base + d) cs
    | none => none

/-- One or more decimal digits. -/
def decNat (l : List Char) : Option Nat := if l = [] then none else digits decDigit 10 0 l

/-- One or more hexadecimal digits. -/
def hexNat (l : List Char) : Option Nat := if l = [] then none else digits hexDigit 16 0 l

/-- A decimal integer, with an optional minus sign: the `<integer>` of `i(...)` and the raw decimal (R54). DESIGN
CHOICE, assumption log 9: decimal digits only, so `i(0x10)` and a plus sign are refused. -/
def decInt : List Char → Option Int
  | '-' :: ds => (decNat ds).map fun n => -(n : Int)
  | ds => (decNat ds).map fun n => (n : Int)

/-- A `<decimal>` of `f(...)` without its sign: digits, and digits after a point if there is one (R54). DESIGN
CHOICE, assumption log 9: no exponent, so `f(1e-3)` is refused, and a digit on each side of a point. -/
def decFraction (l : List Char) : Option Rat :=
  let whole := l.takeWhile (· != '.')
  match l.dropWhile (· != '.') with
  | [] => (decNat whole).map fun n => (n : Rat)
  | _ :: part =>
    match decNat whole, decNat part with
    | some n, some m => some ((n * 10 ^ part.length + m : Nat) / (10 ^ part.length : Nat))
    | _, _ => none

/-- The exact rational a decimal text denotes (R54). -/
def decRat : List Char → Option Rat
  | '-' :: ds => (decFraction ds).map fun q => -q
  | ds => decFraction ds

/-- The text before a closing parenthesis that ends it. -/
def closed (l : List Char) : Option (List Char) :=
  match l.reverse with
  | ')' :: r => some r.reverse
  | _ => none

/-- A `<word>` literal's form (R54). At most 8 hexadecimal digits. The grammar inside `i(...)` and `f(...)` is the
model's choice (assumption log 9). -/
def readLiteral : List Char → Option Literal
  | '0' :: 'x' :: ds => if ds.length ≤ 8 then (hexNat ds).map .hex else none
  | 'i' :: '(' :: r => ((closed r).bind decInt).map .int
  | 'f' :: '(' :: r => ((closed r).bind decRat).map .float
  | ds => (decInt ds).map .dec

/-- The word of a `<word>` operand. -/
def readWord (l : List Char) : Except AsmError Word :=
  match readLiteral l with
  | none => .error .badLiteral
  | some lit =>
    match lit.value with
    | none => .error .literalRange
    | some w => .ok w

/-! ### Names (R53) -/

/-- The mnemonic of an operation. -/
def Op.text : Op → List Char
  | .init => ['i', 'n', 'i', 't']
  | .wr => ['w', 'r']
  | .rd => ['r', 'd']
  | .calculate => ['c', 'a', 'l', 'c']
  | .fromint => ['f', 'r', 'o', 'm', 'i', 'n', 't']
  | .frac => ['f', 'r', 'a', 'c']
  | .mul => ['m', 'u', 'l']
  | .div => ['d', 'i', 'v']

/-- The assembler name of a register (R10). -/
def Reg.text : Reg → List Char
  | .kp => ['k', 'p']
  | .ki => ['k', 'i']
  | .kd => ['k', 'd']
  | .dt => ['d', 't']
  | .integral => ['i', 'n', 't', 'e', 'g', 'r', 'a', 'l']
  | .prevError => ['p', 'r', 'e', 'v', 'e', 'r', 'r', 'o', 'r']
  | .max => ['m', 'a', 'x']
  | .min => ['m', 'i', 'n']

/-- The directive for a raw word. -/
def word72Text : List Char := ['.', 'w', 'o', 'r', 'd', '7', '2']

def readOp (l : List Char) : Option Op :=
  [Op.init, Op.wr, Op.rd, Op.calculate, Op.fromint, Op.frac, Op.mul, Op.div].find? fun op => Op.text op == l

def readReg (l : List Char) : Except AsmError Reg :=
  match [Reg.kp, Reg.ki, Reg.kd, Reg.dt, Reg.integral, Reg.prevError, Reg.max, Reg.min].find?
      fun r => Reg.text r == l with
  | some r => .ok r
  | none => .error .badRegister

/-! ### Lines (R53) -/

/-- The command of an operation and its operands. -/
def assembleOperands (op : Op) (args : List (List Char)) : Except AsmError Instr :=
  match op, args with
  | .init, [] => .ok .init
  | .wr, [r, v] => do
    let r ← readReg r
    let v ← readWord v
    .ok (.wr r.index v)
  | .rd, [r] => do
    let r ← readReg r
    .ok (.rd r.index)
  | .calculate, [a, b] => do
    let a ← readWord a
    let b ← readWord b
    .ok (.calculate a b)
  | .fromint, [a] => do
    let a ← readWord a
    .ok (.fromint a)
  | .frac, [a] => do
    let a ← readWord a
    .ok (.frac a)
  | .mul, [a, b] => do
    let a ← readWord a
    let b ← readWord b
    .ok (.mul a b)
  | .div, [a, b] => do
    let a ← readWord a
    let b ← readWord b
    .ok (.div a b)
  | _, _ => .error .operandCount

/-- The word of a `.word72` directive: exactly 18 hexadecimal digits. -/
def assembleRaw (args : List (List Char)) : Except AsmError Command :=
  match args with
  | [ds] =>
    if ds.length = 18 then
      match hexNat ds with
      | some n => .ok (BitVec.ofNat 72 n)
      | none => .error .badWord72
    else .error .badWord72
  | _ => .error .operandCount

/-- A line without its comment, in lower case, without the blanks around it. -/
def plainLine (line : List Char) : List Char := trim ((line.takeWhile (· != ';')).map Char.toLower)

/-- The first word of a line. -/
def mnemonicOf (l : List Char) : List Char := l.takeWhile fun c => !isBlank c

/-- One line of assembler text: its command word, `none` for a blank line, or an error (R53). -/
def assembleLine (line : List Char) : Except AsmError (Option Command) :=
  let l := plainLine line
  let args := operands (l.dropWhile fun c => !isBlank c)
  if l = [] then .ok none
  else if mnemonicOf l = word72Text then
    match assembleRaw args with
    | .ok w => .ok (some w)
    | .error e => .error e
  else
    match readOp (mnemonicOf l) with
    | none => .error .unknownMnemonic
    | some op =>
      match assembleOperands op args with
      | .ok i => .ok (some (encode i))
      | .error e => .error e

/-- A program text, line by line: its command words in order (R52, R53). -/
def assemble : List (List Char) → Except AsmError (List Command)
  | [] => .ok []
  | line :: lines =>
    match assembleLine line, assemble lines with
    | .ok none, .ok ws => .ok ws
    | .ok (some w), .ok ws => .ok (w :: ws)
    | .error e, _ => .error e
    | _, .error e => .error e

/-! ### The disassembler (R53) -/

/-- A hexadecimal digit's character. -/
def hexChar (d : Nat) : Char := if d < 10 then Char.ofNat (48 + d) else Char.ofNat (55 + d)

/-- The last `k` hexadecimal digits of a number, most significant first. -/
def hexText : Nat → Nat → List Char
  | 0, _ => []
  | k + 1, n => hexChar (n / 16 ^ k % 16) :: hexText k n

/-- `<word>` as `0x` and eight hex digits. -/
def wordText (w : Word) : List Char := '0' :: 'x' :: hexText 8 w.toNat

/-- The name of the register an index names. -/
def indexText (r : RegIndex) : List Char :=
  match Reg.ofIndex r with
  | some x => Reg.text x
  | none => []

/-- A legal command in the form of R53. -/
def instrText (i : Instr) : List Char :=
  Op.text i.op ++
    match i with
    | .init => []
    | .wr r v => ' ' :: indexText r ++ (',' :: ' ' :: wordText v)
    | .rd r => ' ' :: indexText r
    | .calculate sp pv => ' ' :: wordText sp ++ (',' :: ' ' :: wordText pv)
    | .fromint n => ' ' :: wordText n
    | .frac a => ' ' :: wordText a
    | .mul a b => ' ' :: wordText a ++ (',' :: ' ' :: wordText b)
    | .div a b => ' ' :: wordText a ++ (',' :: ' ' :: wordText b)

/-- A legal word in the form of R53, an illegal one as `.word72`. -/
def disassemble (w : Command) : List Char :=
  match decode w with
  | .ok i => instrText i
  | .error _ => word72Text ++ ' ' :: hexText 18 w.toNat

end Sys2Proof.Machine
end

