-- ==== Sys2Proof/Machine/System.lean ====
section
/-! DEFINITION. Several instances of the block (10_state.md R25): a product of copies of the machine that
share nothing. -/

namespace Sys2Proof.Machine

/-- A system of block instances, numbered by position; an instance has no identifier of its own (R25). -/
abbrev System := List State

/-- One instance takes a step; the others do nothing. A number that names no instance changes nothing. -/
def System.stepAt (sys : System) (k : Nat) : Host.Outcome System Fault Refusal :=
  match sys[k]? with
  | none => .next sys
  | some s =>
    match step s with
    | .next t => .next (sys.set k t)
    | .fault r => .fault r
    | .refused r => .refused r

end Sys2Proof.Machine
end

