-- ==== Sys2Proof/Safety.lean ====
section
/-! DEFINITION. The terms claims are stated in: what a well-behaved host does (70_reset_and_hazards.md R126 to
R132), which command may write which register (10_state.md R10), which response answers which command
(30_encoding.md R50), and when no step of a `CALC` overflows (R130). -/

namespace Sys2Proof.Machine

/-! ### Shapes of states -/

/-- The registers in the order of their indices (R10). -/
def Regs.toList (x : Regs) : List Word := [x.kp, x.ki, x.kd, x.dt, x.integral, x.prevError, x.max, x.min]

/-- `s` with the registers and the draw counter given, and one response more: the state after a command. -/
def State.answered (s : State) (regs : Regs) (draws : Nat) (ok : Bool) (result : Word) : State :=
  { regs := regs, done := s.done, pending := s.pending, responses := s.responses ++ [⟨ok, result⟩], draws := draws }

/-- `s` after the host's event `e` has been taken from the port and `rest` is left. -/
def State.took (s : State) (e : HostEvent) (rest : List HostEvent) : State :=
  { regs := s.regs, done := s.done ++ [e], pending := rest, responses := s.responses, draws := s.draws }

/-! ### The software obligations the hardware does not check -/

/-- R127 and R129 for `CALC`: `Dt ≠ 0` and `Min <= Max` (signed). -/
def Regs.configured (x : Regs) : Bool := x.dt != 0#32 && !gts x.min x.max

/-- The next thing the host does keeps R127 and R129. -/
def State.obeys (s : State) : Bool :=
  match s.fetch with
  | .idle => true
  | .reset => true
  | .illegal => true
  | .run i =>
    match i with
    | .init => true
    | .wr _ _ => true
    | .rd _ => true
    | .calculate _ _ => s.regs.configured
    | .fromint _ => true
    | .frac _ => true
    | .mul _ _ => true
    | .div _ b => b != 0#32

/-- A safe run of `k` steps: every step obeys the obligations and answers a next state. -/
def SafeRun : Nat → State → Prop
  | 0, _ => True
  | k + 1, s => s.obeys = true ∧ ∃ t, step s = .next t ∧ SafeRun k t

/-- The instruction divides by zero on these registers: its response may be an unspecified word (R75, R88). -/
def dividesByZero (i : Instr) (x : Regs) : Bool :=
  match i with
  | .init => false
  | .wr _ _ => false
  | .rd _ => false
  | .calculate _ _ => x.dt == 0#32
  | .fromint _ => false
  | .frac _ => false
  | .mul _ _ => false
  | .div _ b => b == 0#32

/-! ### Which command may write which register (the column "written by" of R10) -/

/-- The command word is one that writes the register. -/
def writesReg (w : Command) (r : Reg) : Bool :=
  match decode w with
  | .error _ => false
  | .ok i =>
    match i with
    | .init => true
    | .wr k _ => Reg.ofIndex k == some r
    | .rd _ => false
    | .calculate _ _ => r == .integral || r == .prevError
    | .fromint _ => false
    | .frac _ => false
    | .mul _ _ => false
    | .div _ _ => false

/-! ### Which response answers which command (R50) -/

/-- What the response says that the command word alone settles: `ok` always; the result of an illegal word,
of `INIT`, `WR`, and of the primitives whatever the registers held, a zero divisor's result excepted. -/
def answers (w : Command) (r : Response) : Bool :=
  match decode w with
  | .error _ => r == ⟨false, 0#32⟩
  | .ok i =>
    match i with
    | .init => r == ⟨true, 0#32⟩
    | .wr _ _ => r == ⟨true, 0#32⟩
    | .rd _ => r.ok
    | .calculate _ _ => r.ok
    | .fromint n => r == ⟨true, fromInt n⟩
    | .frac a => r == ⟨true, frac a⟩
    | .mul a b => r == ⟨true, mul a b⟩
    | .div a b => if b = 0#32 then r.ok else r == ⟨true, divNonzero a b⟩

/-- Every command taken so far has exactly one response, in command order, and it is an answer to that
command (R6, R36, R50). -/
def Accounted (s : State) : Prop := List.Forall₂ (fun w r => answers w r = true) (commandsOf s.done) s.responses

/-! ### One `CALC` in exact arithmetic -/

/-- The three-term law on unbounded integers (raw values, 2^-16 units): floor in the products, truncation in
the quotient, no narrowing anywhere. -/
structure ExactCalc where
  error : Int
  pout : Int
  integral : Int
  iout : Int
  change : Int
  derivative : Int
  dout : Int
  sum : Int
  deriving DecidableEq, Repr

/-- The law of R84 applied to the registers' signed values, with nothing narrowed. -/
def exactCalc (x : Regs) (sp pv : Word) : ExactCalc :=
  let error := sp.toInt - pv.toInt
  let pout := x.kp.toInt * error / 65536
  let integral := x.integral.toInt + error * x.dt.toInt / 65536
  let iout := x.ki.toInt * integral / 65536
  let change := error - x.prevError.toInt
  let derivative := Int.tdiv (change * 65536) x.dt.toInt
  let dout := x.kd.toInt * derivative / 65536
  { error := error, pout := pout, integral := integral, iout := iout, change := change,
    derivative := derivative, dout := dout, sum := pout + iout + dout }

/-- The value fits a word. -/
def fits (z : Int) : Bool := decide (-(2 ^ 31) ≤ z ∧ z ≤ 2 ^ 31 - 1)

/-- No step of this `CALC` wraps: every exact intermediate fits a word. R130 lists a sufficient condition;
this is the condition itself, and it includes the difference of the errors, which R130's list leaves out
(assumption log 8). -/
def noOverflow (x : Regs) (sp pv : Word) : Bool :=
  let e := exactCalc x sp pv
  fits e.error && fits e.pout && fits (e.error * x.dt.toInt / 65536) && fits e.integral && fits e.iout &&
    fits e.change && fits e.derivative && fits e.dout && fits e.sum

end Sys2Proof.Machine
end

