-- ==== Sys2Proof/Certificates/Slice0/Obligations.lean ====
section
/-! DEFINITION. The statements for the provers, from the numbered rules of the spec. Where a docstring says
"decision D<n>" the clause rests on a choice the spec records as its own in 92_eei_decisions.md. -/

open Sys2Proof Sys2Proof.Machine

/-! ### Encoding and decoding -/

/-- Decoding an encoded instruction gives it back exactly when it is well formed; an instruction whose
register index is 8 to 15 encodes to an illegal word (R41 to R44, R48; the encoding is decisions D2 to D4). -/
def Obligations.DecodeOfEncodeGivesTheInstruction : Prop :=
  ∀ i : Instr, decode (encode i) = if i.wellFormed = true then .ok i else .error .illegalCommand

/-- A word that decodes is the one word of its instruction, which is well formed: no bit of a legal word is
dropped (R41, R44). -/
def Obligations.EncodeOfDecodeGivesTheWord : Prop :=
  ∀ (w : Command) (i : Instr), decode w = .ok i → i.wellFormed = true ∧ encode i = w

/-- Decoding as R51 words it: read `OP`; if reserved, illegal; otherwise test the row of that `OP`; if the test
fails, illegal; otherwise the row's free fields. -/
def Obligations.DecoderReadsOpcodeThenMask : Prop :=
  ∀ w : Command, decode w =
    if opField w = 0x1#4 then
      if w &&& 0xFFFFFFFFFFFFFFFFFF#72 = 0x100000000000000000#72 then .ok .init else .error .illegalCommand
    else if opField w = 0x2#4 then
      if w &&& 0xF800000000FFFFFFFF#72 = 0x200000000000000000#72
        then .ok (.wr (0#1 ++ w.extractLsb' 64 3) (w.extractLsb' 32 32)) else .error .illegalCommand
    else if opField w = 0x3#4 then
      if w &&& 0xF8FFFFFFFFFFFFFFFF#72 = 0x300000000000000000#72
        then .ok (.rd (0#1 ++ w.extractLsb' 64 3)) else .error .illegalCommand
    else if opField w = 0x4#4 then
      if w &&& 0xFF0000000000000000#72 = 0x400000000000000000#72
        then .ok (.calculate (w.extractLsb' 32 32) (w.extractLsb' 0 32)) else .error .illegalCommand
    else if opField w = 0x8#4 then
      if w &&& 0xFF00000000FFFFFFFF#72 = 0x800000000000000000#72
        then .ok (.fromint (w.extractLsb' 32 32)) else .error .illegalCommand
    else if opField w = 0x9#4 then
      if w &&& 0xFF00000000FFFFFFFF#72 = 0x900000000000000000#72
        then .ok (.frac (w.extractLsb' 32 32)) else .error .illegalCommand
    else if opField w = 0xA#4 then
      if w &&& 0xFF0000000000000000#72 = 0xA00000000000000000#72
        then .ok (.mul (w.extractLsb' 32 32) (w.extractLsb' 0 32)) else .error .illegalCommand
    else if opField w = 0xB#4 then
      if w &&& 0xFF0000000000000000#72 = 0xB00000000000000000#72
        then .ok (.div (w.extractLsb' 32 32) (w.extractLsb' 0 32)) else .error .illegalCommand
    else .error .illegalCommand

/-- The illegal words are exactly those R48 lists, and what an illegal word does at the port, in any state:
no register changes, the response is `{0, 0x00000000}`, nothing else is recorded, and the next command is then
at the port (R48, R101; decisions D4, D5). -/
def Obligations.WordsOutsideTheTableAreIllegalCommands : Prop :=
  ∀ w : Command,
    (decode w = .error .illegalCommand ↔ ∀ row ∈ opcodeTable, row.covers w = false) ∧
    (decode w = .error .illegalCommand ↔
      opField w ∈ [0x0#4, 0x5#4, 0x6#4, 0x7#4, 0xC#4, 0xD#4, 0xE#4, 0xF#4] ∨
      (opField w ∈ [0x2#4, 0x3#4] ∧ 8 ≤ (rField w).toNat) ∨
      (opField w ∈ [0x1#4, 0x4#4, 0x8#4, 0x9#4, 0xA#4, 0xB#4] ∧ rField w ≠ 0#4) ∨
      (opField w ∈ [0x1#4, 0x3#4] ∧ aField w ≠ 0#32) ∨
      (opField w ∈ [0x1#4, 0x2#4, 0x3#4, 0x8#4, 0x9#4] ∧ bField w ≠ 0#32)) ∧
    (decode w = .error .illegalCommand → ∀ (s : State) (rest : List HostEvent), s.pending = .command w :: rest →
      step s = .next ((s.took (.command w) rest).answered s.regs s.draws false 0#32))

/-- The rows of the opcode table are pairwise disjoint: at most one covers any word (R44). -/
def Obligations.AtMostOneRowCoversAWord : Prop :=
  ∀ (w : Command) (p q : Row), p ∈ opcodeTable → q ∈ opcodeTable → p.covers w = true → q.covers w = true → p = q

/-- The example words of R44 and words of V-DECODE (95_test_vectors.md) decode as the spec says. -/
def Obligations.ExampleWordsDecodeAsTheSpecSays : Prop :=
  decode 0x100000000000000000#72 = .ok .init ∧
  decode 0x200001000000000000#72 = .ok (.wr 0#4 0x00010000#32) ∧
  decode 0x27FF9C000000000000#72 = .ok (.wr 7#4 0xFF9C0000#32) ∧
  decode 0x340000000000000000#72 = .ok (.rd 4#4) ∧
  decode 0x40000A000000000000#72 = .ok (.calculate 0x000A0000#32 0x00000000#32) ∧
  decode 0x80FFFFFFFF00000000#72 = .ok (.fromint 0xFFFFFFFF#32) ∧
  decode 0x90FFFF800000000000#72 = .ok (.frac 0xFFFF8000#32) ∧
  decode 0xA0FFFF800000008000#72 = .ok (.mul 0xFFFF8000#32 0x00008000#32) ∧
  decode 0xB00001000000030000#72 = .ok (.div 0x00010000#32 0x00030000#32) ∧
  decode 0x280000000500000000#72 = .error .illegalCommand ∧
  decode 0x340000000100000000#72 = .error .illegalCommand ∧
  decode 0x410000000500000005#72 = .error .illegalCommand ∧
  decode 0xFFFFFFFFFFFFFFFFFF#72 = .error .illegalCommand

/-- A byte stream is read as commands exactly when it is their stored bytes, one command after another;
command `k` is the bytes `9k` to `9k + 8`; a length that is no multiple of 9 is refused (R32, R33; decision
D17). -/
def Obligations.ByteStreamsAreWholeNumbersOfCommands : Prop :=
  (∀ (bs : List Byte) (ws : List Command), commandsOfBytes bs = .ok ws ↔ bs = ws.flatMap commandBytes) ∧
  (∀ bs : List Byte, commandsOfBytes bs = .error .notWholeCommands ↔ bs.length % 9 ≠ 0) ∧
  (∀ (bs : List Byte) (ws : List Command) (k j : Nat) (w : Command), commandsOfBytes bs = .ok ws →
    ws[k]? = some w → j < 9 → bs[9 * k + j]? = (commandBytes w)[j]?)

/-- The stored forms of commands and responses, and the 33-bit response word (R32, R50; decisions D5, D17). -/
def Obligations.StoredFormsAreMostSignificantByteFirst : Prop :=
  (∀ w : Command, commandBytes w = [opField w ++ rField w,
      (aField w).extractLsb' 24 8, (aField w).extractLsb' 16 8, (aField w).extractLsb' 8 8, (aField w).extractLsb' 0 8,
      (bField w).extractLsb' 24 8, (bField w).extractLsb' 16 8, (bField w).extractLsb' 8 8, (bField w).extractLsb' 0 8]) ∧
  (∀ r : Response, r.word.getLsbD 32 = r.ok ∧ r.word.extractLsb' 0 32 = r.result ∧
    r.bytes = [if r.ok = true then 0x01#8 else 0x00#8, r.result.extractLsb' 24 8, r.result.extractLsb' 16 8,
      r.result.extractLsb' 8 8, r.result.extractLsb' 0 8])

/-! ### The commands -/

/-- `INIT` (R81): from any state it zeroes all eight registers, responds `{1, 0}` and changes nothing else;
every word with its opcode does so if `R`, `A` and `B` are zero and is otherwise refused with nothing zeroed;
a second `INIT` changes no register. -/
def Obligations.InitZeroesTheStateRecord : Prop :=
  (∀ s : State, ∃ t, exec .init s = .next t ∧ t.regs.toList = List.replicate 8 0#32 ∧
    t = s.answered t.regs s.draws true 0#32) ∧
  (∀ (s : State) (w : Command) (rest : List HostEvent), s.pending = .command w :: rest → opField w = 0x1#4 →
    step s = if rField w = 0#4 ∧ aField w = 0#32 ∧ bField w = 0#32
      then .next ((s.took (.command w) rest).answered ⟨0#32, 0#32, 0#32, 0#32, 0#32, 0#32, 0#32, 0#32⟩ s.draws true 0#32)
      else .next ((s.took (.command w) rest).answered s.regs s.draws false 0#32)) ∧
  (∀ s t u : State, exec .init s = .next t → exec .init t = .next u → u.regs = t.regs)

/-- `WR` (R82): an index below 8 sets exactly that register, numbered in the order of R10, to the value, whatever
the value, and responds `{1, 0}`; a higher index is `IllegalCommand`; so is a word with `B ≠ 0`. Nothing else
changes (the writability of `Integral` and `PrevError` is decision D7). -/
def Obligations.WrWritesExactlyTheNamedRegister : Prop :=
  (∀ (s : State) (r : RegIndex) (v : Word), r.toNat < 8 → ∃ t, exec (.wr r v) s = .next t ∧
    t.regs.toList = s.regs.toList.set r.toNat v ∧ t = s.answered t.regs s.draws true 0#32) ∧
  (∀ (s : State) (r : RegIndex) (v : Word), 8 ≤ r.toNat →
    exec (.wr r v) s = .next (s.answered s.regs s.draws false 0#32)) ∧
  (∀ (s : State) (w : Command) (rest : List HostEvent), s.pending = .command w :: rest → opField w = 0x2#4 →
    if (rField w).toNat < 8 ∧ bField w = 0#32
      then ∃ t, step s = .next t ∧ t.regs.toList = s.regs.toList.set (rField w).toNat (aField w) ∧
        t = (s.took (.command w) rest).answered t.regs s.draws true 0#32
      else step s = .next ((s.took (.command w) rest).answered s.regs s.draws false 0#32))

/-- `RD` (R83): an index below 8 responds `{1, x[r]}` in the order of R10 and changes no register; a higher index
is `IllegalCommand`; so is a word with `A ≠ 0` or `B ≠ 0` (decision D7: all eight are readable). -/
def Obligations.RdReturnsTheNamedRegister : Prop :=
  (∀ (s : State) (r : RegIndex) (v : Word), s.regs.toList[r.toNat]? = some v →
    exec (.rd r) s = .next (s.answered s.regs s.draws true v)) ∧
  (∀ (s : State) (r : RegIndex), 8 ≤ r.toNat →
    exec (.rd r) s = .next (s.answered s.regs s.draws false 0#32)) ∧
  (∀ (s : State) (w : Command) (rest : List HostEvent), s.pending = .command w :: rest → opField w = 0x3#4 →
    step s = match s.regs.toList[(rField w).toNat]? with
      | some v => if aField w = 0#32 ∧ bField w = 0#32
          then .next ((s.took (.command w) rest).answered s.regs s.draws true v)
          else .next ((s.took (.command w) rest).answered s.regs s.draws false 0#32)
      | none => .next ((s.took (.command w) rest).answered s.regs s.draws false 0#32))

/-- `CALC` (R84) with its precondition `Dt ≠ 0`: the ten steps. It completes in every such state, writes
`Integral` and `PrevError` and no other register, draws nothing, and responds with the clamped sum. A word with
its opcode and `R ≠ 0` is refused, and nothing is written. -/
def Obligations.CalcPerformsTheTenSteps : Prop :=
  ∀ (s : State) (sp pv : Word), s.regs.dt ≠ 0#32 →
    let error := sub32 sp pv
    let pout := mul s.regs.kp error
    let integral := add32 s.regs.integral (mul error s.regs.dt)
    let iout := mul s.regs.ki integral
    let derivative := divNonzero (sub32 error s.regs.prevError) s.regs.dt
    let dout := mul s.regs.kd derivative
    let sum := add32 (add32 pout iout) dout
    let output :=
      if s.regs.max.toInt < sum.toInt then s.regs.max
      else if sum.toInt < s.regs.min.toInt then s.regs.min
      else sum
    exec (.calculate sp pv) s =
      .next (s.answered { s.regs with integral := integral, prevError := error } s.draws true output) ∧
    (∀ (w : Command) (rest : List HostEvent), s.pending = .command w :: rest → opField w = 0x4#4 →
      aField w = sp → bField w = pv →
      step s = if rField w = 0#4
        then .next ((s.took (.command w) rest).answered
          { s.regs with integral := integral, prevError := error } s.draws true output)
        else .next ((s.took (.command w) rest).answered s.regs s.draws false 0#32))

/-- `CALC` with `Dt = 0` (R88; decision D11): it completes; the quotient is some word `q` (a free value: any
word), which goes through steps 6 to 8; `Integral` keeps its value and `PrevError` becomes the error; a draw is
counted; `ok = 1`. -/
def Obligations.CalcWithZeroDtCompletesWithSomeQuotient : Prop :=
  ∀ (s : State) (sp pv : Word), s.regs.dt = 0#32 →
    ∃ q : Word,
      let error := sub32 sp pv
      let sum := add32 (add32 (mul s.regs.kp error) (mul s.regs.ki s.regs.integral)) (mul s.regs.kd q)
      exec (.calculate sp pv) s =
        .next (s.answered { s.regs with prevError := error } (s.draws + 1) true (clamp sum s.regs.min s.regs.max))

/-- `FROMINT` (R76, R67; decision D3): it responds `{n[15:0], 0x0000}` with `ok = 1` and changes nothing else; a
word with its opcode and `R ≠ 0` or `B ≠ 0` is refused. -/
def Obligations.FromintShiftsLeftBySixteen : Prop :=
  (∀ (s : State) (n : Word), exec (.fromint n) s =
    .next (s.answered s.regs s.draws true (n.extractLsb' 0 16 ++ 0#16))) ∧
  (∀ (s : State) (w : Command) (rest : List HostEvent), s.pending = .command w :: rest → opField w = 0x8#4 →
    step s = if rField w = 0#4 ∧ bField w = 0#32
      then .next ((s.took (.command w) rest).answered s.regs s.draws true ((aField w).extractLsb' 0 16 ++ 0#16))
      else .next ((s.took (.command w) rest).answered s.regs s.draws false 0#32))

/-- `FRAC` (R77, R71; decisions D3, D25): it responds `zext_32(a[15:0])` with `ok = 1` and changes nothing else; a
word with its opcode and `R ≠ 0` or `B ≠ 0` is refused. -/
def Obligations.FracKeepsTheLowSixteenBits : Prop :=
  (∀ (s : State) (a : Word), exec (.frac a) s =
    .next (s.answered s.regs s.draws true (0#16 ++ a.extractLsb' 0 16))) ∧
  (∀ (s : State) (w : Command) (rest : List HostEvent), s.pending = .command w :: rest → opField w = 0x9#4 →
    step s = if rField w = 0#4 ∧ bField w = 0#32
      then .next ((s.took (.command w) rest).answered s.regs s.draws true (0#16 ++ (aField w).extractLsb' 0 16))
      else .next ((s.took (.command w) rest).answered s.regs s.draws false 0#32))

/-- `MUL` (R78, R72; decisions D3, D10): it responds bits 47..16 of the 64-bit signed product with `ok = 1` and
changes nothing else; a word with its opcode and `R ≠ 0` is refused. -/
def Obligations.MulRespondsBits47To16OfTheProduct : Prop :=
  (∀ (s : State) (a b : Word), exec (.mul a b) s =
    .next (s.answered s.regs s.draws true ((a.signExtend 64 * b.signExtend 64).extractLsb' 16 32))) ∧
  (∀ (s : State) (w : Command) (rest : List HostEvent), s.pending = .command w :: rest → opField w = 0xA#4 →
    step s = if rField w = 0#4
      then .next ((s.took (.command w) rest).answered s.regs s.draws true
        (((aField w).signExtend 64 * (bField w).signExtend 64).extractLsb' 16 32))
      else .next ((s.took (.command w) rest).answered s.regs s.draws false 0#32))

/-- `DIV` (R79, R74, R75; decisions D3, D9, D10, D11): for a nonzero divisor it responds the low 32 bits of the
truncated 64-bit quotient with `ok = 1` and changes nothing else; a zero divisor completes too, with some word
(a free value: any word) and `ok = 1`, and counts a draw; a word with its opcode and `R ≠ 0` is refused. -/
def Obligations.DivRespondsTheTruncatedQuotient : Prop :=
  (∀ (s : State) (a b : Word), b ≠ 0#32 → exec (.div a b) s =
    .next (s.answered s.regs s.draws true (((a.signExtend 64 <<< 16).sdiv (b.signExtend 64)).extractLsb' 0 32))) ∧
  (∀ (s : State) (a : Word), ∃ q : Word, exec (.div a 0#32) s =
    .next (s.answered s.regs (s.draws + 1) true q)) ∧
  (∀ (s : State) (w : Command) (rest : List HostEvent), s.pending = .command w :: rest → opField w = 0xB#4 →
    step s = if rField w = 0#4
      then exec (.div (aField w) (bField w)) (s.took (.command w) rest)
      else .next ((s.took (.command w) rest).answered s.regs s.draws false 0#32))

/-! ### The arithmetic -/

/-- Every arithmetic result is congruent to the exact one modulo 2^32, and is the exact one whenever that fits:
overflow wraps silently and nothing saturates (R60, R65, R66; decision D10). -/
def Obligations.NarrowingIsWraparound : Prop :=
  ∀ a b : Word,
    let congruent (v : Word) (z : Int) : Prop :=
      (∃ k : Int, v.toInt = z + k * 2 ^ 32) ∧ (-(2 ^ 31) ≤ z → z ≤ 2 ^ 31 - 1 → v.toInt = z)
    congruent (add32 a b) (a.toInt + b.toInt) ∧
    congruent (sub32 a b) (a.toInt - b.toInt) ∧
    congruent (fromInt a) (a.toInt * 65536) ∧
    congruent (mul a b) (Int.fdiv (a.toInt * b.toInt) 65536) ∧
    (b ≠ 0#32 → congruent (divNonzero a b) (Int.tdiv (a.toInt * 65536) b.toInt))

/-- Addition is the low 32 bits of the sum, commutative and associative; subtraction is the low 32 bits of the
difference (R62, R63). -/
def Obligations.AddAndSubtractAreTheLow32Bits : Prop :=
  ∀ a b c : Word,
    add32 a b = BitVec.ofInt 32 (a.toInt + b.toInt) ∧ add32 a b = BitVec.ofNat 32 (a.toNat + b.toNat) ∧
    add32 a b = add32 b a ∧ add32 (add32 a b) c = add32 a (add32 b c) ∧
    sub32 a b = BitVec.ofInt 32 (a.toInt - b.toInt) ∧ add32 (sub32 a b) b = a

/-- The signed compares are exact and order words as their real values (R64). -/
def Obligations.ComparesOrderTheRealValues : Prop :=
  ∀ a b : Word,
    (gts a b = true ↔ a.toInt > b.toInt) ∧ (lts a b = true ↔ a.toInt < b.toInt) ∧
    (gts a b = true ↔ val a > val b) ∧ (lts a b = true ↔ val a < val b)

/-- `FromInt` (R67): the low 16 bits of the operand above 16 zeros; exact for a 16-bit integer, so `ToFloat` gives
the integer back; outside that range the high bits are dropped (decision D12 for the operand's width). -/
def Obligations.FromIntIsExactOn16BitIntegers : Prop :=
  (∀ n : Word, fromInt n = n.extractLsb' 0 16 ++ 0#16) ∧
  (∀ n : Word, -32768 ≤ n.toInt → n.toInt ≤ 32767 → toFloat (fromInt n) = n.toInt) ∧
  (∀ n m : Word, n.extractLsb' 0 16 = m.extractLsb' 0 16 → fromInt n = fromInt m) ∧
  fromInt 0x00008000#32 = 0x80000000#32 ∧ fromInt 0x00010000#32 = 0x00000000#32 ∧ fromInt 0xFFFF7FFF#32 = 0x7FFF0000#32

/-- `Frac` (R71): read as Q16.16 the result lies in `[0, 1)` and is the value less its floor, for a negative operand
too (decision D25). -/
def Obligations.FracIsTheValueLessItsFloor : Prop :=
  ∀ a : Word, frac a = 0#16 ++ a.extractLsb' 0 16 ∧ val (frac a) = val a - ((val a).floor : Rat) ∧
    0 ≤ val (frac a) ∧ val (frac a) < 1

/-- `Mul` (R72): the 64-bit signed product is exact, the result is its bits 47..16, and it is the floor of the exact
product over 2^16, narrowed (decision D10). -/
def Obligations.MulIsTheShiftedExactProduct : Prop :=
  ∀ a b : Word,
    (a.signExtend 64 * b.signExtend 64).toInt = a.toInt * b.toInt ∧
    mul a b = (a.signExtend 64 * b.signExtend 64).extractLsb' 16 32 ∧
    mul a b = ((a.signExtend 64 * b.signExtend 64).sshiftRight 16).extractLsb' 0 32 ∧
    mul a b = BitVec.ofInt 32 (Int.fdiv (a.toInt * b.toInt) 65536)

/-- The properties of `Mul` that R73 lists: commutative, 1.0 is its identity for every word, zero, neither
associative nor distributive over `+32` in general, and what multiplying by -1.0 does. -/
def Obligations.MulHasTheListedProperties : Prop :=
  (∀ a b : Word, mul a b = mul b a) ∧
  (∀ a : Word, mul a 0x00010000#32 = a) ∧
  (∀ a : Word, mul a 0#32 = 0#32) ∧
  (∃ a b c : Word, mul (mul a b) c ≠ mul a (mul b c)) ∧
  (∃ a b c : Word, mul a (add32 b c) ≠ add32 (mul a b) (mul a c)) ∧
  (∀ a : Word, mul a 0xFFFF0000#32 = BitVec.ofInt 32 (-a.toInt)) ∧
  mul 0x80000000#32 0xFFFF0000#32 = 0x80000000#32

/-- `Div` for a nonzero divisor (R74; decisions D9, D10): the low 32 bits of the signed 64-bit quotient rounded
toward zero; neither the dividend nor the quotient overflows 64 bits. -/
def Obligations.DivIsTheTruncated64BitQuotient : Prop :=
  ∀ a b : Word, b ≠ 0#32 →
    (a.signExtend 64 <<< 16).toInt = a.toInt * 65536 ∧
    ((a.signExtend 64 <<< 16).sdiv (b.signExtend 64)).toInt = Int.tdiv (a.toInt * 65536) b.toInt ∧
    divNonzero a b = ((a.signExtend 64 <<< 16).sdiv (b.signExtend 64)).extractLsb' 0 32

/-- The identities R74 lists: dividing by 1.0, dividing zero, dividing a word by itself. -/
def Obligations.DivHasTheListedIdentities : Prop :=
  (∀ a : Word, divNonzero a 0x00010000#32 = a) ∧
  (∀ b : Word, b ≠ 0#32 → divNonzero 0#32 b = 0#32) ∧
  (∀ a : Word, a ≠ 0#32 → divNonzero a a = 0x00010000#32)

/-- The four sign combinations of R74: the magnitude is the floor of the magnitudes' quotient and the sign is
negative exactly when the operands' signs differ, narrowed to 32 bits (decision D9). -/
def Obligations.DivRoundsTowardZeroForEverySign : Prop :=
  ∀ a b : Word, b ≠ 0#32 →
    let magnitude : Int := ((a.toInt.natAbs * 65536 / b.toInt.natAbs : Nat) : Int)
    divNonzero a b = BitVec.ofInt 32 (if (a.toInt < 0 ↔ b.toInt < 0) then magnitude else -magnitude)

/-! ### The control law -/

/-- The clamp (R90): `Max` is tested first; between the bounds the value passes unchanged, the bounds themselves
included; with `Min <= Max` the result lies between them; with `Min > Max` it is `Max` if the value is above
`Max` and otherwise `Min`, never the value. -/
def Obligations.ClampTestsMaxFirst : Prop :=
  ∀ s lo hi : Word,
    (hi.toInt < s.toInt → clamp s lo hi = hi) ∧
    (s.toInt ≤ hi.toInt → s.toInt < lo.toInt → clamp s lo hi = lo) ∧
    (lo.toInt ≤ s.toInt → s.toInt ≤ hi.toInt → clamp s lo hi = s) ∧
    (lo.toInt ≤ hi.toInt → lo.toInt ≤ (clamp s lo hi).toInt ∧ (clamp s lo hi).toInt ≤ hi.toInt) ∧
    (hi.toInt < lo.toInt → clamp s lo hi = (if hi.toInt < s.toInt then hi else lo) ∧ clamp s lo hi ≠ s)

/-- With `Min <= Max` a `CALC` completes with a response between the bounds, whatever the other registers, the
operands, and (for `Dt = 0`) the quotient drawn (R88, R90). -/
def Obligations.CalcResponseStaysWithinTheBounds : Prop :=
  ∀ (s : State) (sp pv : Word), s.regs.min.toInt ≤ s.regs.max.toInt →
    ∃ t r, exec (.calculate sp pv) s = .next t ∧ t.responses = s.responses ++ [⟨true, r⟩] ∧
      s.regs.min.toInt ≤ r.toInt ∧ r.toInt ≤ s.regs.max.toInt

/-- When `Min <= Max` is broken (R129, R90): `CALC` still completes, for every `Dt`, and responds `Max` or `Min`: the
clamp of the sum and never the sum itself. The quotient `q` in the sum is R74's for `Dt ≠ 0`; for `Dt = 0` it is some
word, the one drawn (decision D11). -/
def Obligations.CalcWithMinAboveMaxNeverReturnsTheSum : Prop :=
  ∀ (s : State) (sp pv : Word), s.regs.max.toInt < s.regs.min.toInt →
    ∃ t r q, exec (.calculate sp pv) s = .next t ∧ t.responses = s.responses ++ [⟨true, r⟩] ∧
      (r = s.regs.max ∨ r = s.regs.min) ∧
      (s.regs.dt ≠ 0#32 → q = divNonzero (sub32 (sub32 sp pv) s.regs.prevError) s.regs.dt) ∧
      (let sum := add32 (add32 (mul s.regs.kp (sub32 sp pv)) (mul s.regs.ki t.regs.integral)) (mul s.regs.kd q)
       r = clamp sum s.regs.min s.regs.max ∧ r ≠ sum)

/-- With `Dt = 0` and `Kd = 0` the drawn quotient does not reach the output (R88). -/
def Obligations.ZeroKdHidesTheDrawnQuotient : Prop :=
  ∀ (s : State) (sp pv : Word), s.regs.dt = 0#32 → s.regs.kd = 0#32 →
    exec (.calculate sp pv) s = .next (s.answered { s.regs with prevError := sub32 sp pv } (s.draws + 1) true
      (clamp (add32 (mul s.regs.kp (sub32 sp pv)) (mul s.regs.ki s.regs.integral)) s.regs.min s.regs.max))

/-- A `CALC` straight after reset or `INIT` (R124): with all eight registers zero it responds `{1, 0}`, leaves
`Integral` zero and stores the error, whatever the quotient drawn; and the registers are zero after `INIT`, after
hardware reset, and in the state the machine starts in (R81, R23, R120; decisions D8, D11). -/
def Obligations.CalcStraightAfterInitRespondsZero : Prop :=
  (∀ (t : State) (sp pv : Word), t.regs.toList = List.replicate 8 0#32 →
    exec (.calculate sp pv) t = .next (t.answered
      ⟨0#32, 0#32, 0#32, 0#32, 0#32, sub32 sp pv, 0#32, 0#32⟩ (t.draws + 1) true 0#32)) ∧
  (∀ s t : State, exec .init s = .next t → t.regs.toList = List.replicate 8 0#32) ∧
  (∀ (s t : State) (inFlight : Option Command) (rest : List HostEvent), s.pending = .reset inFlight :: rest →
    step s = .next t → t.regs.toList = List.replicate 8 0#32) ∧
  State.reset.regs.toList = List.replicate 8 0#32

/-- A second `CALC` with the same operands has no derivative term (95_test_vectors.md L1-8; R88): its output is the
clamped sum of the other two terms. -/
def Obligations.RepeatedErrorHasNoDerivativeTerm : Prop :=
  ∀ (s t : State) (sp pv : Word), s.regs.dt ≠ 0#32 → exec (.calculate sp pv) s = .next t →
    ∃ u, exec (.calculate sp pv) t = .next u ∧ u.responses = t.responses ++ [⟨true,
      clamp (add32 (mul s.regs.kp (sub32 sp pv)) (mul s.regs.ki u.regs.integral)) s.regs.min s.regs.max⟩]

/-- No anti-windup (R87, R92; decision D15): what a `CALC` leaves in `Integral` and `PrevError` does not depend on the
gains, on the bounds, on the old `PrevError` or on a draw; and over any program of commands, two controllers that
start with the same `Dt`, `Integral` and `PrevError` end with the same three, whatever their gains and bounds, so
no clamping of the output can stop the accumulator. -/
def Obligations.AccumulatorIgnoresGainsAndBounds : Prop :=
  (∀ (s₁ s₂ : State) (sp pv : Word), s₁.regs.dt = s₂.regs.dt → s₁.regs.integral = s₂.regs.integral →
    ∃ t₁ t₂, exec (.calculate sp pv) s₁ = .next t₁ ∧ exec (.calculate sp pv) s₂ = .next t₂ ∧
      t₁.regs.integral = t₂.regs.integral ∧ t₁.regs.prevError = t₂.regs.prevError) ∧
  (∀ (p : List Command) (s₁ s₂ : State), s₁.pending = [] → s₂.pending = [] → s₁.regs.dt = s₂.regs.dt →
    s₁.regs.integral = s₂.regs.integral → s₁.regs.prevError = s₂.regs.prevError →
    ∃ t₁ t₂ : State, Host.Core.run Sys2Proof.core p.length (s₁.present p) = .next t₁ ∧
      Host.Core.run Sys2Proof.core p.length (s₂.present p) = .next t₂ ∧ t₁.regs.dt = t₂.regs.dt ∧
      t₁.regs.integral = t₂.regs.integral ∧ t₁.regs.prevError = t₂.regs.prevError)

/-- With `Dt` = 1.0, `n` times the same `CALC` adds `n` times its error to `Integral`, exactly and modulo 2^32,
whatever the gains and bounds (95_test_vectors.md L1-7, V-CALC-8; R16: the accumulator wraps and never saturates). -/
def Obligations.NCalcsAddNTimesTheErrorToIntegral : Prop :=
  ∀ (n : Nat) (s : State) (w : Command) (sp pv : Word) (rest : List HostEvent), decode w = .ok (.calculate sp pv) →
    s.regs.dt = 0x00010000#32 → s.pending = List.replicate n (.command w) ++ rest →
    ∃ t : State, Host.Core.run Sys2Proof.core n s = .next t ∧ t.pending = rest ∧
      t.regs.integral = s.regs.integral + BitVec.ofNat 32 n * (sp - pv)

/-- Where no exact intermediate of a `CALC` overflows, the block computes the three-term law on unbounded integers:
the registers it leaves and the output are the exact ones (R84, R66; the idea of R130, with the condition of
assumption log 8 in place of R130's list). -/
def Obligations.CalcIsExactWhenNothingOverflows : Prop :=
  ∀ (s : State) (sp pv : Word), s.regs.dt ≠ 0#32 → noOverflow s.regs sp pv = true →
    let e := exactCalc s.regs sp pv
    ∃ t r, exec (.calculate sp pv) s = .next t ∧ t.responses = s.responses ++ [⟨true, r⟩] ∧
      t.regs.prevError.toInt = e.error ∧ t.regs.integral.toInt = e.integral ∧
      r.toInt = if s.regs.max.toInt < e.sum then s.regs.max.toInt
        else if e.sum < s.regs.min.toInt then s.regs.min.toInt else e.sum

/-! ### The machine -/

/-- A step runs the decoded instruction: when the word at the port decodes, the step is `exec` of it on the state
with that word taken from the port. -/
def Obligations.StepRunsTheDecodedInstruction : Prop :=
  ∀ (s : State) (w : Command) (rest : List HostEvent) (i : Instr), s.pending = .command w :: rest →
    decode w = .ok i → step s = exec i (s.took (.command w) rest)

/-- No step faults and none is refused, in any state: the machine always goes on. For a legal command R100 says so. For
an illegal word (R101, which would also allow a refusal) and for a zero divisor (where 93_implementation_defined.md
U1 would also allow a fault) it is the model's choice: assumption log 7 and 13. -/
def Obligations.EveryStepAnswersANextState : Prop := ∀ s : State, ∃ t, step s = .next t

/-- Every command, legal or not, gets exactly one response, after those before it; `ok` says whether the word is
legal and nothing else; an illegal word, `INIT` and `WR` respond with a zero result (R50; decision D5). -/
def Obligations.EveryCommandGetsExactlyOneResponse : Prop :=
  ∀ (s : State) (w : Command) (rest : List HostEvent), s.pending = .command w :: rest →
    ∃ t r, step s = .next t ∧ t.responses = s.responses ++ [r] ∧ r.ok = isLegal w ∧
      ((isLegal w = false ∨ opField w = 0x1#4 ∨ opField w = 0x2#4) → r.result = 0#32)

/-- With nothing at its port the block does nothing on its own (R111, R121). -/
def Obligations.AnIdleBlockDoesNothing : Prop := ∀ s : State, s.pending = [] → step s = .next s

/-- Hardware reset leaves the registers as `INIT` does, all zero, gives no response, and drops a command in flight
(R103, R120; decisions D8, D23). That reset is an entry of `done` which carries the command in flight, and that it
does not set `draws` back, is the model's choice (assumption log 6). -/
def Obligations.HardwareResetZeroesEveryRegister : Prop :=
  ∀ (s : State) (inFlight : Option Command) (rest : List HostEvent), s.pending = .reset inFlight :: rest →
    ∃ t u, step s = .next t ∧ exec .init s = .next u ∧ t.regs = u.regs ∧ t.regs.toList = List.replicate 8 0#32 ∧
      t.responses = s.responses ∧ t.pending = rest ∧ t.done = s.done ++ [.reset inFlight] ∧ t.draws = s.draws

/-- Right after reset every register is zero (R23; decision D8), nothing has been sent and nothing answered
(assumption log 2, 3: the model's choice). -/
def Obligations.TheResetStateIsAllZero : Prop :=
  State.reset.regs.toList = List.replicate 8 0#32 ∧ State.reset.pc = 0 ∧ State.reset.program = [] ∧
    State.reset.responses = [] ∧ State.reset.draws = 0

/-- Every step keeps the accounting: each command taken so far has exactly one response, in order, and it is an
answer to that command (R6, R36, R50). -/
def Obligations.ResponsesAnswerTheCommandsInOrder : Prop :=
  ∀ s t : State, Accounted s → step s = .next t → Accounted t

/-- The accounting holds at reset. -/
def Obligations.ResetIsAccounted : Prop := Accounted State.reset

/-- The index `pc` (R20; decision D18): a step with something at the port adds exactly one to it, a rejected command
included; no step changes the program; the run is at its end exactly when `pc` equals the program's length, and then
a step changes nothing. That a reset event counts as an entry of the program, and so in `pc`, is the model's choice,
which R20 does not say (assumption log 4). -/
def Obligations.PcCountsEveryCommandTaken : Prop :=
  ∀ s t : State, step s = .next t →
    t.program = s.program ∧
    (s.pc < s.program.length → t.pc = s.pc + 1) ∧
    (s.pc = s.program.length → t = s) ∧
    s.pc ≤ s.program.length

/-- A program of `n` commands executes exactly `n` commands and gives `n` responses, and then the block has nothing
left to do (R52, R6; decision D18). -/
def Obligations.AProgramOfNCommandsGivesNResponses : Prop :=
  ∀ (p : List Command) (s : State), s.pending = [] →
    ∃ t : State, Host.Core.run Sys2Proof.core p.length (s.present p) = .next t ∧ t.pending = [] ∧
      t.pc = s.pc + p.length ∧ t.responses.length = s.responses.length + p.length ∧
      t.program = s.program ++ p.map .command ∧ step t = .next t

/-- A register is changed only by hardware reset or by a command that R10's table lists as its writer: `INIT`, `WR`
of that register, and for `Integral` and `PrevError` a `CALC` (R10, R12 to R19, R24). -/
def Obligations.OnlyItsWritersChangeARegister : Prop :=
  ∀ (s t : State) (r : Reg), step s = .next t → t.regs.read r ≠ s.regs.read r →
    (∃ d rest, s.pending = .reset d :: rest) ∨
    (∃ w rest i, s.pending = .command w :: rest ∧ decode w = .ok i ∧
      (i = .init ∨ (∃ v, i = .wr r.index v) ∨
        ((r = .integral ∨ r = .prevError) ∧ ∃ sp pv, i = .calculate sp pv)))

/-- R37 (a): after a `WR` of a register and any commands that do not write it, illegal words among them, an `RD` of
it returns the value written; and the same from any state with the value the register holds there. -/
def Obligations.RdReturnsTheLatestWrite : Prop :=
  ∀ (r : Reg) (v : Word) (p : List Command) (s : State), (∀ w ∈ p, writesReg w r = false) → s.pending = [] →
    (∃ t : State, Host.Core.run Sys2Proof.core (p.length + 1) (s.present (p ++ [encode (.rd r.index)])) = .next t ∧
      t.responses.getLast? = some ⟨true, s.regs.read r⟩) ∧
    (∃ t : State, Host.Core.run Sys2Proof.core (p.length + 2)
        (s.present (encode (.wr r.index v) :: p ++ [encode (.rd r.index)])) = .next t ∧
      t.responses.getLast? = some ⟨true, v⟩)

/-- A primitive command cannot change what a later `CALC` does to the registers or returns (40_fixed_point_primitives.md
section 4), the free value of a `CALC` with `Dt = 0` excepted. -/
def Obligations.PrimitivesCannotChangeALaterCalc : Prop :=
  ∀ (s s' : State) (i : Instr) (sp pv : Word), i.op ∈ [Op.fromint, Op.frac, Op.mul, Op.div] → s.regs.dt ≠ 0#32 →
    exec i s = .next s' →
    ∃ t t' r, exec (.calculate sp pv) s = .next t ∧ exec (.calculate sp pv) s' = .next t' ∧
      t'.regs = t.regs ∧ t.responses = s.responses ++ [r] ∧ t'.responses = s'.responses ++ [r]

/-- The result of a command depends only on the registers and the command, and on the draw when it divides by zero
(R22; decision D24): two states with the same registers answer alike, whatever else has happened in them. R75 lets
two draws differ always; that equal counters `draws` stand for one and the same draw is the model's choice, the form
of its free value (assumption log 1). -/
def Obligations.ResultsDependOnlyOnRegistersAndCommand : Prop :=
  ∀ (i : Instr) (s₁ s₂ : State), s₁.regs = s₂.regs → (dividesByZero i s₁.regs = false ∨ s₁.draws = s₂.draws) →
    ∃ t₁ t₂ r, exec i s₁ = .next t₁ ∧ exec i s₂ = .next t₂ ∧ t₁.regs = t₂.regs ∧
      t₁.responses = s₁.responses ++ [r] ∧ t₂.responses = s₂.responses ++ [r]

/-- Illegal words leave no trace (R104, R105; decision D4): a list of commands and the same list without its illegal
words end with the same registers, the same draws, and the same `ok = 1` responses. Where commands divide by zero,
that the two runs draw the same words is the model's choice, the counter form of its free value (assumption log 1). -/
def Obligations.IllegalCommandsLeaveNoTrace : Prop :=
  ∀ (p : List Command) (s : State), s.pending = [] →
    ∃ t u : State,
      Host.Core.run Sys2Proof.core p.length (s.present p) = .next t ∧
      Host.Core.run Sys2Proof.core (p.filter isLegal).length (s.present (p.filter isLegal)) = .next u ∧
      t.regs = u.regs ∧ t.draws = u.draws ∧
      ∃ rt ru, t.responses = s.responses ++ rt ∧ u.responses = s.responses ++ ru ∧ rt.filter (·.ok) = ru

/-- While the host keeps the obligations of R127 and R129 no step counts a draw (R75, R127), and a `CALC` or `DIV` with
a zero divisor counts exactly one. `draws` is the model's own counter, the argument of its free value (assumption
log 1). -/
def Obligations.ObligationsKeptMeansNoDraw : Prop :=
  (∀ s t : State, s.obeys = true → step s = .next t → t.draws = s.draws) ∧
  (∀ (s : State) (w : Command) (rest : List HostEvent) (i : Instr), s.pending = .command w :: rest → decode w = .ok i →
    dividesByZero i s.regs = true → ∃ t, step s = .next t ∧ t.draws = s.draws + 1)

/-- Writes of different registers commute, so the configuration writes of the bring-up may come in any order
(R123). -/
def Obligations.WritesOfDifferentRegistersCommute : Prop :=
  ∀ (s : State) (q r : Reg) (u v : Word), q ≠ r →
    ∃ a b c d, exec (.wr q.index u) s = .next a ∧ exec (.wr r.index v) a = .next b ∧
      exec (.wr r.index v) s = .next c ∧ exec (.wr q.index u) c = .next d ∧ b = d

/-- Several instances share nothing (R25): steps of two different ones commute, and a step of one leaves every other
as it was. That an instance which divides by zero draws the same word in both orders is the form of the model's free
value (assumption log 1). -/
def Obligations.InstancesDoNotInterfere : Prop :=
  ∀ (sys : System) (j k : Nat), j ≠ k →
    ∃ a b c : System, sys.stepAt j = .next a ∧ a.stepAt k = .next c ∧
      sys.stepAt k = .next b ∧ b.stepAt j = .next c ∧ (∀ l : Nat, l ≠ j → a[l]? = sys[l]?)

/-! ### The host's side -/

/-- `FromFloat` (R68, R69; decision D13): round half away from zero, in the closed form of R68; defined exactly where
R69 says. -/
def Obligations.FromFloatRoundsHalfAwayFromZero : Prop :=
  ∀ f : Rat, fromFloat f =
    if -(2 ^ 31) - 1 / 2 < f * 65536 ∧ f * 65536 < 2 ^ 31 - 1 / 2
      then some (BitVec.ofInt 32 (if 0 ≤ f then (f * 65536 + 1 / 2).floor else -(-f * 65536 + 1 / 2).floor))
      else none

/-- The round trip of R70 and 95_test_vectors.md L1-1: `FromFloat` of `ToFloat` is the word itself, and `ToFloat` of
`FromFloat` is within 2^-17 of the number. -/
def Obligations.FromFloatAndToFloatRoundTrip : Prop :=
  (∀ a : Word, fromFloat (toFloat a) = some a) ∧
  (∀ (f : Rat) (a : Word), fromFloat f = some a → |toFloat a - f| ≤ 1 / 2 ^ 17)

/-- The literals of R54: what each form gives and what it refuses (decisions D13, D20). `f(...)` gives R68's rounding
of its number, in closed form, exactly where R69 gives one. -/
def Obligations.LiteralsGiveTheWordsOfTheTable : Prop :=
  (∀ n : Nat, Literal.value (.hex n) = if n < 2 ^ 32 then some (BitVec.ofNat 32 n) else none) ∧
  (∀ n : Int, if -(2 ^ 31) ≤ n ∧ n ≤ 2 ^ 32 - 1
    then ∃ w : Word, Literal.value (.dec n) = some w ∧ ∃ k : Int, n = w.toInt + k * 2 ^ 32
    else Literal.value (.dec n) = none) ∧
  (∀ n : Int, if -32768 ≤ n ∧ n ≤ 32767
    then ∃ w : Word, Literal.value (.int n) = some w ∧ toFloat w = n
    else Literal.value (.int n) = none) ∧
  (∀ q : Rat, Literal.value (.float q) =
    if -(2 ^ 31) - 1 / 2 < q * 65536 ∧ q * 65536 < 2 ^ 31 - 1 / 2
      then some (BitVec.ofInt 32 (if 0 ≤ q then (q * 65536 + 1 / 2).floor else -(-q * 65536 + 1 / 2).floor))
      else none)

/-- The assembler cannot produce an illegal command but through `.word72` (R53; decision D20). -/
def Obligations.AssemblerNeverMakesAnIllegalCommand : Prop :=
  ∀ (line : List Char) (w : Command), assembleLine line = .ok (some w) →
    mnemonicOf (plainLine line) ≠ word72Text → isLegal w = true

/-- Assembling the disassembly of any word, legal or not, gives the word back (R53; decision D20; the text's details
are assumption log 9). -/
def Obligations.DisassembledTextAssemblesBack : Prop :=
  ∀ w : Command, assembleLine (disassemble w) = .ok (some w)
end

