-- ==== Sys2Proof/Laws/Arith.lean ====
section
/-! SUPPORT. The lemmas of the narrowing and of the signed compares: every later fact about the arithmetic of
40_fixed_point_primitives.md goes through them. -/

namespace Sys2Proof.Machine

/-- The signed value of a narrowed integer (R65, R66). -/
theorem toInt_wrap32 (z : Int) : (wrap32 z).toInt = Int.bmod z (2 ^ 32) := by
  simp [wrap32, BitVec.toInt_ofInt]

/-- Narrowing loses nothing of an integer that fits (R65). -/
theorem toInt_wrap32_of_fits {z : Int} (h₁ : -(2 ^ 31) ≤ z) (h₂ : z ≤ 2 ^ 31 - 1) :
    (wrap32 z).toInt = z := by
  rw [toInt_wrap32]
  exact Int.bmod_eq_of_le (by omega) (by omega)

/-- Two integers narrow to one word exactly when they agree modulo 2^32. -/
theorem wrap32_eq_iff (x y : Int) : wrap32 x = wrap32 y ↔ x % 2 ^ 32 = y % 2 ^ 32 := by
  have hx : Int.bmod x (2 ^ 32) % ((2 ^ 32 : Nat) : Int) = x % ((2 ^ 32 : Nat) : Int) := Int.bmod_emod
  have hy : Int.bmod y (2 ^ 32) % ((2 ^ 32 : Nat) : Int) = y % ((2 ^ 32 : Nat) : Int) := Int.bmod_emod
  have hx' : Int.bmod (x % ((2 ^ 32 : Nat) : Int)) (2 ^ 32) = Int.bmod x (2 ^ 32) := Int.emod_bmod x (2 ^ 32)
  have hy' : Int.bmod (y % ((2 ^ 32 : Nat) : Int)) (2 ^ 32) = Int.bmod y (2 ^ 32) := Int.emod_bmod y (2 ^ 32)
  rw [← BitVec.toInt_inj, toInt_wrap32, toInt_wrap32]
  constructor
  · intro h
    rw [h] at hx
    exact_mod_cast hx.symm.trans hy
  · intro h
    have h' : x % ((2 ^ 32 : Nat) : Int) = y % ((2 ^ 32 : Nat) : Int) := by exact_mod_cast h
    rw [← hx', ← hy', h']

/-- A word is the narrowing of its own signed value. -/
@[simp] theorem wrap32_toInt (v : Word) : wrap32 v.toInt = v := by simp [wrap32]

/-- The signed value of a word lies in the 32-bit range (R61). -/
theorem toInt_range (v : Word) : -(2 ^ 31) ≤ v.toInt ∧ v.toInt ≤ 2 ^ 31 - 1 := by
  have h₁ := BitVec.le_toInt v
  have h₂ := BitVec.toInt_lt (x := v)
  constructor <;> omega

/-- The wrapping sum is the adder's (R62). -/
theorem add32_eq (a b : Word) : add32 a b = a + b := by
  simp [add32, wrap32, BitVec.ofInt_add]

/-- The wrapping difference is the subtractor's (R63). -/
theorem sub32_eq (a b : Word) : sub32 a b = a - b := by
  rw [← BitVec.toInt_inj, sub32, toInt_wrap32, BitVec.toInt_sub]

/-- The signed compare as an order on the signed values (R64). -/
theorem gts_iff (a b : Word) : gts a b = true ↔ b.toInt < a.toInt := by simp [gts]

theorem lts_iff (a b : Word) : lts a b = true ↔ a.toInt < b.toInt := by simp [lts]

/-- A product with zero is zero, whatever the other factor (R73 (c)). -/
@[simp] theorem zero_mul32 (v : Word) : mul 0#32 v = 0#32 := by simp [mul, asr, wrap32]

@[simp] theorem mul32_zero (v : Word) : mul v 0#32 = 0#32 := by simp [mul, asr, wrap32]

/-- A nonzero word has a nonzero signed value. -/
theorem toInt_ne_zero {b : Word} (h : b ≠ 0#32) : b.toInt ≠ 0 := by
  intro hb
  apply h
  rw [← BitVec.toInt_inj, hb]
  rfl

/-- The low 32 bits of a 64-bit value are the narrowing of its signed value (R65). -/
theorem low32_eq_wrap32 (x : BitVec 64) : x.extractLsb' 0 32 = wrap32 x.toInt := by
  have h : x.extractLsb' 0 32 = x.setWidth 32 := by
    apply BitVec.eq_of_getLsbD_eq
    intro i hi
    simp [hi]
  rw [h, ← BitVec.toInt_inj, toInt_wrap32, BitVec.toInt_setWidth, BitVec.toInt_eq_toNat_bmod]
  exact (Int.bmod_bmod_of_dvd (by decide)).symm

end Sys2Proof.Machine
end

