-- ==== Sys2Proof/Laws/Decode.lean ====
section
/-! SUPPORT. The lemmas of the decoder: a word is the packing of its fields, a row covers a word exactly when
the word's fields are as the row's format says, and what decoding gives for a word in terms of its fields. -/

namespace Sys2Proof

variable (op : BitVec 4) (r : RegIndex) (a b : Word)

/-- The bits of a packed word. -/
theorem getLsbD_pack (i : Nat) : (pack op r a b).getLsbD i =
    if i < 32 then b.getLsbD i else if i < 64 then a.getLsbD (i - 32)
    else if i < 68 then r.getLsbD (i - 64) else op.getLsbD (i - 68) := by
  unfold pack
  rw [BitVec.getLsbD_append, BitVec.getLsbD_append, BitVec.getLsbD_append]
  split
  · rfl
  · split
    · rw [if_pos (by omega)]
    · split
      · rw [if_neg (by omega), if_pos (by omega)]; congr 1
      · rw [if_neg (by omega), if_neg (by omega)]; congr 1

/-- Packing and the four fields undo one another (R40). -/
@[simp] theorem opField_pack : opField (pack op r a b) = op := by
  apply BitVec.eq_of_getLsbD_eq; intro i hi
  simp only [opField, BitVec.getLsbD_extractLsb', getLsbD_pack, hi, decide_true, Bool.true_and]
  rw [if_neg (by omega), if_neg (by omega), if_neg (by omega)]; congr 1; omega

@[simp] theorem rField_pack : rField (pack op r a b) = r := by
  apply BitVec.eq_of_getLsbD_eq; intro i hi
  simp only [rField, BitVec.getLsbD_extractLsb', getLsbD_pack, hi, decide_true, Bool.true_and]
  rw [if_neg (by omega), if_neg (by omega), if_pos (by omega)]; congr 1; omega

@[simp] theorem aField_pack : aField (pack op r a b) = a := by
  apply BitVec.eq_of_getLsbD_eq; intro i hi
  simp only [aField, BitVec.getLsbD_extractLsb', getLsbD_pack, hi, decide_true, Bool.true_and]
  rw [if_neg (by omega), if_pos (by omega)]; congr 1; omega

@[simp] theorem bField_pack : bField (pack op r a b) = b := by
  apply BitVec.eq_of_getLsbD_eq; intro i hi
  simp only [bField, BitVec.getLsbD_extractLsb', getLsbD_pack, hi, decide_true, Bool.true_and]
  rw [if_pos (by omega)]; congr 1; omega

/-- A word is the packing of its own fields (R40). -/
theorem pack_fields (w : Command) : pack (opField w) (rField w) (aField w) (bField w) = w := by
  apply BitVec.eq_of_getLsbD_eq; intro i hi
  rw [getLsbD_pack]
  simp only [opField, rField, aField, bField, BitVec.getLsbD_extractLsb']
  split
  · simp [*]
  · split
    · rw [decide_eq_true (by omega : i - 32 < 32), Bool.true_and]; congr 1; omega
    · split
      · rw [decide_eq_true (by omega : i - 64 < 4), Bool.true_and]; congr 1; omega
      · rw [decide_eq_true (by omega : i - 68 < 4), Bool.true_and]; congr 1; omega

/-- Two packings are one word exactly when the fields are the same. -/
theorem pack_inj (op' : BitVec 4) (r' : RegIndex) (a' b' : Word) :
   pack op r a b = pack op' r' a' b' ↔ op = op' ∧ r = r' ∧ a = a' ∧ b = b' := by
  constructor
  · intro h
    refine ⟨?_, ?_, ?_, ?_⟩
    · simpa [opField_pack] using congrArg opField h
    · simpa [rField_pack] using congrArg rField h
    · simpa [aField_pack] using congrArg aField h
    · simpa [bField_pack] using congrArg bField h
  · rintro ⟨rfl, rfl, rfl, rfl⟩; rfl

/-- Masking works field by field. -/
theorem pack_and (op' : BitVec 4) (r' : RegIndex) (a' b' : Word) :
   pack op r a b &&& pack op' r' a' b' = pack (op &&& op') (r &&& r') (a &&& a') (b &&& b') := by
  apply BitVec.eq_of_getLsbD_eq; intro i hi
  simp only [BitVec.getLsbD_and, getLsbD_pack]
  split <;> try rfl
  split <;> try rfl
  split <;> rfl

/-- A masked compare of a whole word, field by field. -/
theorem and_eq_iff_fields (w : Command) (mo po : BitVec 4) (mr pr : RegIndex) (ma pa mb pb : Word) :
    w &&& pack mo mr ma mb = pack po pr pa pb ↔
      opField w &&& mo = po ∧ rField w &&& mr = pr ∧ aField w &&& ma = pa ∧ bField w &&& mb = pb := by
  conv_lhs => rw [← pack_fields w, pack_and, pack_inj]

/-- The mask bit of the register field is the check `R[3] = 0` (R48 (b)). -/
theorem and_zero_iff : ∀ r : RegIndex, r &&& 8#4 = 0#4 ↔ RegIndex.wellFormed r = true := by decide

/-- What the decoder answers, by fields: each row of the opcode table as the conditions its format puts on the
fields (R41, R44). -/
theorem decode_pack : decode (pack op r a b) =
    if op = 0x1#4 ∧ r = 0#4 ∧ a = 0#32 ∧ b = 0#32 then .ok .init
    else if op = 0x2#4 ∧ RegIndex.wellFormed r = true ∧ b = 0#32 then .ok (.wr r a)
    else if op = 0x3#4 ∧ RegIndex.wellFormed r = true ∧ a = 0#32 ∧ b = 0#32 then .ok (.rd r)
    else if op = 0x4#4 ∧ r = 0#4 then .ok (.calculate a b)
    else if op = 0x8#4 ∧ r = 0#4 ∧ b = 0#32 then .ok (.fromint a)
    else if op = 0x9#4 ∧ r = 0#4 ∧ b = 0#32 then .ok (.frac a)
    else if op = 0xA#4 ∧ r = 0#4 then .ok (.mul a b)
    else if op = 0xB#4 ∧ r = 0#4 then .ok (.div a b)
    else .error .illegalCommand := by
  have key : ∀ (m p : Command) (mo po : BitVec 4) (mr pr : RegIndex) (ma pa mb pb : Word),
      m = pack mo mr ma mb → p = pack po pr pa pb →
      ((pack op r a b &&& m == p) = true ↔ op &&& mo = po ∧ r &&& mr = pr ∧ a &&& ma = pa ∧ b &&& mb = pb) := by
    intro m p mo po mr pr ma pa mb pb hm hp
    rw [hm, hp, pack_and, beq_iff_eq, pack_inj]
  have ones4 : ∀ x : BitVec 4, x &&& 15#4 = x := by decide
  have ones : ∀ x : Word, x &&& 0xFFFFFFFF#32 = x := fun x => BitVec.and_allOnes
  have zero : ∀ x : Word, x &&& 0#32 = 0#32 := fun x => BitVec.and_zero
  have h1 := key 0xFFFFFFFFFFFFFFFFFF#72 0x100000000000000000#72 15#4 1#4 15#4 0#4 0xFFFFFFFF#32 0#32 0xFFFFFFFF#32 0#32
    (by decide) (by decide)
  have h2 := key 0xF800000000FFFFFFFF#72 0x200000000000000000#72 15#4 2#4 8#4 0#4 0#32 0#32 0xFFFFFFFF#32 0#32
    (by decide) (by decide)
  have h3 := key 0xF8FFFFFFFFFFFFFFFF#72 0x300000000000000000#72 15#4 3#4 8#4 0#4 0xFFFFFFFF#32 0#32 0xFFFFFFFF#32 0#32
    (by decide) (by decide)
  have h4 := key 0xFF0000000000000000#72 0x400000000000000000#72 15#4 4#4 15#4 0#4 0#32 0#32 0#32 0#32
    (by decide) (by decide)
  have h8 := key 0xFF00000000FFFFFFFF#72 0x800000000000000000#72 15#4 8#4 15#4 0#4 0#32 0#32 0xFFFFFFFF#32 0#32
    (by decide) (by decide)
  have h9 := key 0xFF00000000FFFFFFFF#72 0x900000000000000000#72 15#4 9#4 15#4 0#4 0#32 0#32 0xFFFFFFFF#32 0#32
    (by decide) (by decide)
  have hA := key 0xFF0000000000000000#72 0xA00000000000000000#72 15#4 10#4 15#4 0#4 0#32 0#32 0#32 0#32
    (by decide) (by decide)
  have hB := key 0xFF0000000000000000#72 0xB00000000000000000#72 15#4 11#4 15#4 0#4 0#32 0#32 0#32 0#32
    (by decide) (by decide)
  simp only [ones4, ones, zero, true_and, and_true, and_zero_iff] at h1 h2 h3 h4 h8 h9 hA hB
  simp only [decode, opcodeTable, List.find?, Row.covers]
  by_cases c1 : op = 0x1#4 ∧ r = 0#4 ∧ a = 0#32 ∧ b = 0#32
  · rw [if_pos c1, h1.2 c1]; rfl
  rw [if_neg c1, Bool.eq_false_iff.2 (mt h1.1 c1)]
  by_cases c2 : op = 0x2#4 ∧ RegIndex.wellFormed r = true ∧ b = 0#32
  · rw [if_pos c2, h2.2 c2]; simp [Op.instr, rField_pack, aField_pack]
  rw [if_neg c2, Bool.eq_false_iff.2 (mt h2.1 c2)]
  by_cases c3 : op = 0x3#4 ∧ RegIndex.wellFormed r = true ∧ a = 0#32 ∧ b = 0#32
  · rw [if_pos c3, h3.2 c3]; simp [Op.instr, rField_pack]
  rw [if_neg c3, Bool.eq_false_iff.2 (mt h3.1 c3)]
  by_cases c4 : op = 0x4#4 ∧ r = 0#4
  · rw [if_pos c4, h4.2 c4]; simp [Op.instr, aField_pack, bField_pack]
  rw [if_neg c4, Bool.eq_false_iff.2 (mt h4.1 c4)]
  by_cases c8 : op = 0x8#4 ∧ r = 0#4 ∧ b = 0#32
  · rw [if_pos c8, h8.2 c8]; simp [Op.instr, aField_pack]
  rw [if_neg c8, Bool.eq_false_iff.2 (mt h8.1 c8)]
  by_cases c9 : op = 0x9#4 ∧ r = 0#4 ∧ b = 0#32
  · rw [if_pos c9, h9.2 c9]; simp [Op.instr, aField_pack]
  rw [if_neg c9, Bool.eq_false_iff.2 (mt h9.1 c9)]
  by_cases cA : op = 0xA#4 ∧ r = 0#4
  · rw [if_pos cA, hA.2 cA]; simp [Op.instr, aField_pack, bField_pack]
  rw [if_neg cA, Bool.eq_false_iff.2 (mt hA.1 cA)]
  by_cases cB : op = 0xB#4 ∧ r = 0#4
  · rw [if_pos cB, hB.2 cB]; simp [Op.instr, aField_pack, bField_pack]
  rw [if_neg cB, Bool.eq_false_iff.2 (mt hB.1 cB)]

/-- The same for any word, through its own fields. -/
theorem decode_by_fields (w : Command) : decode w =
    if opField w = 0x1#4 ∧ rField w = 0#4 ∧ aField w = 0#32 ∧ bField w = 0#32 then .ok .init
    else if opField w = 0x2#4 ∧ RegIndex.wellFormed (rField w) = true ∧ bField w = 0#32 then
      .ok (.wr (rField w) (aField w))
    else if opField w = 0x3#4 ∧ RegIndex.wellFormed (rField w) = true ∧ aField w = 0#32 ∧ bField w = 0#32 then
      .ok (.rd (rField w))
    else if opField w = 0x4#4 ∧ rField w = 0#4 then .ok (.calculate (aField w) (bField w))
    else if opField w = 0x8#4 ∧ rField w = 0#4 ∧ bField w = 0#32 then .ok (.fromint (aField w))
    else if opField w = 0x9#4 ∧ rField w = 0#4 ∧ bField w = 0#32 then .ok (.frac (aField w))
    else if opField w = 0xA#4 ∧ rField w = 0#4 then .ok (.mul (aField w) (bField w))
    else if opField w = 0xB#4 ∧ rField w = 0#4 then .ok (.div (aField w) (bField w))
    else .error .illegalCommand := by
  have h := decode_pack (opField w) (rField w) (aField w) (bField w)
  rwa [pack_fields] at h

/-- The only way a whole word is no instruction is to be illegal (R51). -/
theorem decode_error {w : Command} {e : DecodeError} (h : decode w = .error e) : e = .illegalCommand := by
  unfold decode at h
  split at h
  · cases h
  · cases h; rfl

theorem isLegal_eq_true_iff (w : Command) : isLegal w = true ↔ ∃ i, decode w = .ok i := by
  unfold isLegal; split <;> simp_all

theorem isLegal_eq_false_iff (w : Command) : isLegal w = false ↔ decode w = .error .illegalCommand := by
  unfold isLegal; split
  · simp_all
  · rename_i h; simp [h, decode_error h]

end Sys2Proof
end

