-- ==== Sys2Proof/Laws/State.lean ====
section
/-! SUPPORT. The small lemmas of the state and of the operations on it: one per field per update, so that no
later proof unfolds a record update, and the read-after-write laws of the register file. -/

namespace Sys2Proof.Machine

variable (s : State) (ok : Bool) (v : Word) (r q : Reg)

/-! ### `respond` -/

@[simp] theorem respond_regs : (s.respond ok v).regs = s.regs := rfl
@[simp] theorem respond_done : (s.respond ok v).done = s.done := rfl
@[simp] theorem respond_pending : (s.respond ok v).pending = s.pending := rfl
@[simp] theorem respond_responses : (s.respond ok v).responses = s.responses ++ [⟨ok, v⟩] := rfl
@[simp] theorem respond_draws : (s.respond ok v).draws = s.draws := rfl

/-! ### `raiseIllegalCommand` -/

@[simp] theorem raiseIllegal_regs : (raiseIllegalCommand s).regs = s.regs := rfl
@[simp] theorem raiseIllegal_done : (raiseIllegalCommand s).done = s.done := rfl
@[simp] theorem raiseIllegal_pending : (raiseIllegalCommand s).pending = s.pending := rfl
@[simp] theorem raiseIllegal_responses :
    (raiseIllegalCommand s).responses = s.responses ++ [⟨false, 0#32⟩] := rfl
@[simp] theorem raiseIllegal_draws : (raiseIllegalCommand s).draws = s.draws := rfl

/-! ### `writeReg` -/

@[simp] theorem writeReg_regs : (s.writeReg r v).regs = s.regs.write r v := rfl
@[simp] theorem writeReg_done : (s.writeReg r v).done = s.done := rfl
@[simp] theorem writeReg_pending : (s.writeReg r v).pending = s.pending := rfl
@[simp] theorem writeReg_responses : (s.writeReg r v).responses = s.responses := rfl
@[simp] theorem writeReg_draws : (s.writeReg r v).draws = s.draws := rfl

/-! ### `hardwareReset` -/

@[simp] theorem hardwareReset_regs : (hardwareReset s).regs = Regs.zero := rfl
@[simp] theorem hardwareReset_done : (hardwareReset s).done = s.done := rfl
@[simp] theorem hardwareReset_pending : (hardwareReset s).pending = s.pending := rfl
@[simp] theorem hardwareReset_responses : (hardwareReset s).responses = s.responses := rfl
@[simp] theorem hardwareReset_draws : (hardwareReset s).draws = s.draws := rfl

/-! ### `accept` -/

@[simp] theorem accept_regs : s.accept.regs = s.regs := by
  unfold State.accept; split <;> rfl
@[simp] theorem accept_responses : s.accept.responses = s.responses := by
  unfold State.accept; split <;> rfl
@[simp] theorem accept_draws : s.accept.draws = s.draws := by
  unfold State.accept; split <;> rfl

/-- What `accept` leaves when there is an event at the port. -/
theorem accept_of_pending {s : State} {e : HostEvent} {rest : List HostEvent} (h : s.pending = e :: rest) :
    s.accept = { s with done := s.done ++ [e], pending := rest } := by
  unfold State.accept; simp only [h]

/-- Taking an event never changes the program the host sends (R20). -/
@[simp] theorem accept_program : s.accept.program = s.program := by
  unfold State.accept State.program; split <;> simp_all

/-! ### `present` -/

@[simp] theorem present_regs (p : List Command) : (s.present p).regs = s.regs := rfl
@[simp] theorem present_done (p : List Command) : (s.present p).done = s.done := rfl
@[simp] theorem present_responses (p : List Command) : (s.present p).responses = s.responses := rfl
@[simp] theorem present_draws (p : List Command) : (s.present p).draws = s.draws := rfl
@[simp] theorem present_pending (p : List Command) :
    (s.present p).pending = s.pending ++ p.map HostEvent.command := rfl

/-! ### The register file (R34) -/

@[simp] theorem readReg_eq : s.readReg r = s.regs.read r := rfl

/-- A register reads back what was written to it. -/
@[simp] theorem read_write_same (x : Regs) : (x.write r v).read r = v := by cases r <;> rfl

/-- A write leaves every other register alone. -/
theorem read_write_other (x : Regs) (h : q ≠ r) : (x.write r v).read q = x.read q := by
  cases q <;> cases r <;> first | rfl | exact absurd rfl h

/-- Two records that read alike are the same record. -/
theorem regs_ext_read {x y : Regs} (h : ∀ r, x.read r = y.read r) : x = y := by
  cases x; cases y
  have := h .kp; have := h .ki; have := h .kd; have := h .dt
  have := h .integral; have := h .prevError; have := h .max; have := h .min
  simp_all [Regs.read]

@[simp] theorem zero_read : Regs.zero.read r = 0#32 := by cases r <;> rfl

/-! ### `commandsOf` -/

@[simp] theorem commandsOf_nil : commandsOf [] = [] := rfl
@[simp] theorem commandsOf_append (a b : List HostEvent) :
    commandsOf (a ++ b) = commandsOf a ++ commandsOf b := by simp [commandsOf]
@[simp] theorem commandsOf_command (w : Command) (es : List HostEvent) :
    commandsOf (.command w :: es) = w :: commandsOf es := rfl
@[simp] theorem commandsOf_reset (d : Option Command) (es : List HostEvent) :
    commandsOf (.reset d :: es) = commandsOf es := rfl

end Sys2Proof.Machine
end

