-- ==== Sys2Proof/Laws/Ops.lean ====
section
/-! SUPPORT. One lemma per shared operation that says everything it can do: the register index, dividing,
fetching. -/

namespace Sys2Proof.Machine

/-! ### The register index -/

@[simp] theorem ofIndex_index (r : Reg) : Reg.ofIndex r.index = some r := by cases r <;> rfl

/-- An index names a register exactly when it is well formed (R35, R48). -/
theorem ofIndex_isSome : ∀ k : RegIndex, (Reg.ofIndex k).isSome = RegIndex.wellFormed k := by decide

theorem ofIndex_eq_none {k : RegIndex} (h : RegIndex.wellFormed k = false) : Reg.ofIndex k = none := by
  have := ofIndex_isSome k; simp_all

theorem ofIndex_eq_some {k : RegIndex} (h : RegIndex.wellFormed k = true) : ∃ r, Reg.ofIndex k = some r := by
  have := ofIndex_isSome k; rw [h] at this; exact Option.isSome_iff_exists.1 this

/-- The index a register was found under is its own. -/
theorem index_of_ofIndex : ∀ (k : RegIndex) (r : Reg), Reg.ofIndex k = some r → r.index = k := by
  intro k r h
  have : ∀ k : RegIndex, (Reg.ofIndex k).map Reg.index = if RegIndex.wellFormed k then some k else none := by
    decide
  have hk := this k
  rw [h] at hk
  by_cases hw : RegIndex.wellFormed k = true
  · simpa [hw] using hk
  · simp [hw] at hk

/-- Reading by name is reading the record at the register's index (R10). -/
theorem read_eq_toList (x : Regs) (r : Reg) : x.toList[r.index.toNat]? = some (x.read r) := by
  cases r <;> rfl

/-- Writing by name is setting the record at the register's index (R10). -/
theorem write_toList (x : Regs) (r : Reg) (v : Word) : (x.write r v).toList = x.toList.set r.index.toNat v := by
  cases r <;> rfl

/-! ### Dividing (R74, R75) -/

theorem divide_nonzero (a : Word) {b : Word} (s : State) (h : b ≠ 0#32) : divide a b s = (divNonzero a b, s) :=
  if_neg h

theorem divide_zero (a : Word) (s : State) :
    divide a 0#32 s = (Config.div0 s.draws a, { s with draws := s.draws + 1 }) := by simp [divide]

/-- Dividing touches nothing but the draw counter. -/
@[simp] theorem divide_regs (a b : Word) (s : State) : (divide a b s).2.regs = s.regs := by
  unfold divide; split <;> rfl
@[simp] theorem divide_done (a b : Word) (s : State) : (divide a b s).2.done = s.done := by
  unfold divide; split <;> rfl
@[simp] theorem divide_pending (a b : Word) (s : State) : (divide a b s).2.pending = s.pending := by
  unfold divide; split <;> rfl
@[simp] theorem divide_responses (a b : Word) (s : State) : (divide a b s).2.responses = s.responses := by
  unfold divide; split <;> rfl
@[simp] theorem divide_draws (a b : Word) (s : State) :
    (divide a b s).2.draws = if b = 0#32 then s.draws + 1 else s.draws := by
  unfold divide; split <;> rfl

/-- The quotient depends on the state through the draw counter alone. -/
theorem divide_quotient_congr (a b : Word) (s t : State) (h : s.draws = t.draws) :
    (divide a b s).1 = (divide a b t).1 := by
  unfold divide; split <;> simp [h]

/-! ### Fetching -/

/-- Everything the port can hold (R134). -/
theorem fetch_cases (s : State) :
    (s.pending = [] ∧ s.fetch = .idle) ∨
    (∃ d rest, s.pending = .reset d :: rest ∧ s.fetch = .reset) ∨
    (∃ w rest, s.pending = .command w :: rest ∧ decode w = .error .illegalCommand ∧ s.fetch = .illegal) ∨
    (∃ w rest i, s.pending = .command w :: rest ∧ decode w = .ok i ∧ s.fetch = .run i) := by
  unfold State.fetch
  split
  · exact .inl ⟨‹_›, rfl⟩
  · exact .inr (.inl ⟨_, _, ‹_›, rfl⟩)
  · rename_i w rest h
    cases hd : decode w with
    | ok i => exact .inr (.inr (.inr ⟨w, rest, i, h, hd, rfl⟩))
    | error e =>
      refine .inr (.inr (.inl ⟨w, rest, h, ?_, rfl⟩))
      unfold decode at hd
      split at hd
      · cases hd
      · cases hd; rename_i hn; simp [decode, hn]

end Sys2Proof.Machine
end

