-- ==== Sys2Proof/Laws/Exec.lean ====
section
/-! SUPPORT. What executing an instruction does, said once in closed form: the registers after it, its one
response and the draw it makes if it divides by zero. Later proofs cite `exec_eq` and unfold no meaning. -/

namespace Sys2Proof.Machine

/-- The registers after an instruction (R10's column "written by"): no draw reaches them. -/
def regsAfter (i : Instr) (x : Regs) : Regs :=
  match i with
  | .init => Regs.zero
  | .wr k v => match Reg.ofIndex k with
    | some r => x.write r v
    | none => x
  | .rd _ => x
  | .calculate sp pv =>
    { x with integral := add32 x.integral (mul (sub32 sp pv) x.dt), prevError := sub32 sp pv }
  | .fromint _ => x
  | .frac _ => x
  | .mul _ _ => x
  | .div _ _ => x

/-- The output of a `CALC` on registers `x` when the quotient of step 5 is `q` (R84). -/
def calcOutput (x : Regs) (q sp pv : Word) : Word :=
  let error := sub32 sp pv
  let integral := add32 x.integral (mul error x.dt)
  clamp (add32 (add32 (mul x.kp error) (mul x.ki integral)) (mul x.kd q)) x.min x.max

/-- The quotient of a `CALC`'s step 5 in state `s` (R88). -/
def calcQuotient (s : State) (sp pv : Word) : Word :=
  (divide (sub32 (sub32 sp pv) s.regs.prevError) s.regs.dt s).1

/-- The response to an instruction in state `s`. -/
def responseTo (i : Instr) (s : State) : Response :=
  match i with
  | .init => ⟨true, 0#32⟩
  | .wr k _ => ⟨RegIndex.wellFormed k, 0#32⟩
  | .rd k => match Reg.ofIndex k with
    | some r => ⟨true, s.regs.read r⟩
    | none => ⟨false, 0#32⟩
  | .calculate sp pv => ⟨true, calcOutput s.regs (calcQuotient s sp pv) sp pv⟩
  | .fromint n => ⟨true, fromInt n⟩
  | .frac a => ⟨true, frac a⟩
  | .mul a b => ⟨true, mul a b⟩
  | .div a b => ⟨true, (divide a b s).1⟩

/-- Everything `exec` can do (R50, R100): it answers a next state; the registers, the draws and the one new
response are these, and both queues are as they were. -/
theorem exec_eq (i : Instr) (s : State) : exec i s = .next
    { regs := regsAfter i s.regs, done := s.done, pending := s.pending,
      responses := s.responses ++ [responseTo i s],
      draws := if dividesByZero i s.regs = true then s.draws + 1 else s.draws } := by
  cases i with
  | init => rfl
  | wr k v =>
    by_cases hk : RegIndex.wellFormed k = true
    · obtain ⟨r, hr⟩ := ofIndex_eq_some hk
      simp [exec, execWr, regsAfter, responseTo, dividesByZero, hr, hk, State.respond, State.writeReg]
    · have hr := ofIndex_eq_none (Bool.eq_false_iff.2 hk)
      simp [exec, execWr, regsAfter, responseTo, dividesByZero, hr, hk, raiseIllegalCommand, State.respond]
  | rd k =>
    by_cases hk : RegIndex.wellFormed k = true
    · obtain ⟨r, hr⟩ := ofIndex_eq_some hk
      simp [exec, execRd, regsAfter, responseTo, dividesByZero, hr, State.respond]
    · have hr := ofIndex_eq_none (Bool.eq_false_iff.2 hk)
      simp [exec, execRd, regsAfter, responseTo, dividesByZero, hr, raiseIllegalCommand, State.respond]
  | calculate sp pv =>
    by_cases h : s.regs.dt = 0#32
    · simp [exec, execCalc, regsAfter, responseTo, dividesByZero, calcOutput, calcQuotient, divide, h,
        State.respond, State.writeReg, Regs.write]
    · simp [exec, execCalc, regsAfter, responseTo, dividesByZero, calcOutput, calcQuotient, divide, h,
        State.respond, State.writeReg, Regs.write]
  | fromint n => rfl
  | frac a => rfl
  | mul a b => rfl
  | div a b =>
    by_cases h : b = 0#32
    · simp [exec, execDiv, regsAfter, responseTo, dividesByZero, divide, h, State.respond]
    · simp [exec, execDiv, regsAfter, responseTo, dividesByZero, divide, h, State.respond]
/-- Executing an instruction always answers a next state (R100). -/
theorem exec_next (i : Instr) (s : State) : ∃ t, exec i s = .next t := ⟨_, exec_eq i s⟩

/-! ### What an instruction can do to the registers -/

/-- The primitives write no register (R10, R76 to R79), and neither does `RD` (R83). -/
@[simp] theorem regsAfter_rd (k : RegIndex) (x : Regs) : regsAfter (.rd k) x = x := rfl
@[simp] theorem regsAfter_fromint (n : Word) (x : Regs) : regsAfter (.fromint n) x = x := rfl
@[simp] theorem regsAfter_frac (a : Word) (x : Regs) : regsAfter (.frac a) x = x := rfl
@[simp] theorem regsAfter_mul (a b : Word) (x : Regs) : regsAfter (.mul a b) x = x := rfl
@[simp] theorem regsAfter_div (a b : Word) (x : Regs) : regsAfter (.div a b) x = x := rfl
@[simp] theorem regsAfter_init (x : Regs) : regsAfter .init x = Regs.zero := rfl

/-- Without a zero divisor the response depends on the registers alone (R22). -/
theorem responseTo_congr (i : Instr) (s t : State) (hr : s.regs = t.regs)
    (hd : dividesByZero i s.regs = false ∨ s.draws = t.draws) : responseTo i s = responseTo i t := by
  have hq : ∀ a b : Word, (b ≠ 0#32 ∨ s.draws = t.draws) → (divide a b s).1 = (divide a b t).1 := by
    intro a b h
    rcases h with h | h
    · rw [divide_nonzero a s h, divide_nonzero a t h]
    · exact divide_quotient_congr a b s t h
  cases i <;> simp only [responseTo, hr]
  case calculate sp pv =>
    have h : s.regs.dt ≠ 0#32 ∨ s.draws = t.draws := by
      simpa [dividesByZero] using hd
    simp only [calcQuotient, ← hr]
    rw [hq _ _ h]
  case div a b =>
    have h : b ≠ 0#32 ∨ s.draws = t.draws := by simpa [dividesByZero] using hd
    rw [hq a b h]

end Sys2Proof.Machine
end

