-- ==== Sys2Proof/Laws/PerInstr.lean ====
section
/-! SUPPORT. Statements for all instructions, one lemma per constructor: the fields of an instruction's encoded
word (30_encoding.md R40, R41, R43). -/

namespace Sys2Proof.Laws.EncodedFields

/-- The encoded word carries the instruction's opcode (R43), and its register field is zero unless the format
has one (R41). -/
def Statement (i : Instr) : Prop :=
  opField (encode i) = i.op.code ∧
    (rField (encode i) = 0#4 ∨ i.op = .wr ∨ i.op = .rd)

theorem init : Statement .init := by simp [Statement, encode, Instr.op]
theorem wr (r : RegIndex) (v : Word) : Statement (.wr r v) := by simp [Statement, encode, Instr.op]
theorem rd (r : RegIndex) : Statement (.rd r) := by simp [Statement, encode, Instr.op]
theorem calculate (sp pv : Word) : Statement (.calculate sp pv) := by simp [Statement, encode, Instr.op]
theorem fromint (n : Word) : Statement (.fromint n) := by simp [Statement, encode, Instr.op]
theorem frac (a : Word) : Statement (.frac a) := by simp [Statement, encode, Instr.op]
theorem mul (a b : Word) : Statement (.mul a b) := by simp [Statement, encode, Instr.op]
theorem div (a b : Word) : Statement (.div a b) := by simp [Statement, encode, Instr.op]

end Sys2Proof.Laws.EncodedFields
end

