-- ==== Sys2Proof/Laws/Step.lean ====
section
/-! SUPPORT. What a step can do, said once, and the induction over a run packaged once. -/

namespace Sys2Proof.Machine

/-- A step with a command word at the port: `exec` of its instruction, or the refusal (R48, R101). -/
theorem step_of_command {s : State} {w : Command} {rest : List HostEvent} (hp : s.pending = .command w :: rest) :
    step s = match decode w with
      | .ok i => exec i (s.took (.command w) rest)
      | .error _ => .next ((s.took (.command w) rest).answered s.regs s.draws false 0#32) := by
  cases hd : decode w <;>
    simp [step, State.fetch, hp, hd, State.answered, State.took, raiseIllegalCommand, State.respond,
      accept_of_pending hp]

/-- Every step (R5, R134): idle, reset, an illegal word, or a command; and what each leaves. -/
theorem step_cases (s : State) :
    (s.pending = [] ∧ step s = .next s) ∨
    (∃ d rest, s.pending = .reset d :: rest ∧ step s = .next
      { s with regs := Regs.zero, done := s.done ++ [.reset d], pending := rest }) ∨
    (∃ w rest, s.pending = .command w :: rest ∧ decode w = .error .illegalCommand ∧ step s = .next
      { s with done := s.done ++ [.command w], pending := rest, responses := s.responses ++ [⟨false, 0#32⟩] }) ∨
    (∃ w rest i, s.pending = .command w :: rest ∧ decode w = .ok i ∧ step s = .next
      { regs := regsAfter i s.regs, done := s.done ++ [.command w], pending := rest,
        responses := s.responses ++ [responseTo i s],
        draws := if dividesByZero i s.regs = true then s.draws + 1 else s.draws }) := by
  rcases fetch_cases s with ⟨hp, hf⟩ | ⟨d, rest, hp, hf⟩ | ⟨w, rest, hp, hd, hf⟩ | ⟨w, rest, i, hp, hd, hf⟩
  · exact .inl ⟨hp, by simp [step, hf]⟩
  · exact .inr (.inl ⟨d, rest, hp, by simp [step, hf, hardwareReset, accept_of_pending hp]⟩)
  · refine .inr (.inr (.inl ⟨w, rest, hp, hd, ?_⟩))
    simp [step, hf, raiseIllegalCommand, State.respond, accept_of_pending hp]
  · refine .inr (.inr (.inr ⟨w, rest, i, hp, hd, ?_⟩))
    have hresp : responseTo i s.accept = responseTo i s :=
      responseTo_congr i s.accept s (accept_regs s) (.inr (accept_draws s))
    simp only [step, hf, exec_eq, hresp]
    simp [accept_of_pending hp]

/-- A run of the machine, one step and then the rest. -/
theorem run_succ {s t : State} (k : Nat) (h : step s = .next t) :
    Host.Core.run Sys2Proof.core (k + 1) s = Host.Core.run Sys2Proof.core k t := by
  have h' : Sys2Proof.core.step s = .next t := h
  simp only [Host.Core.run, h']

/-- What holds at the start and is kept by every step holds after every run. -/
theorem run_keeps {P : State → Prop} (hstep : ∀ s t, P s → step s = .next t → P t) :
    ∀ (k : Nat) (s t : State), P s → Host.Core.run Sys2Proof.core k s = .next t → P t
  | 0, s, t, hs, h => by
    have : s = t := Host.Outcome.next.inj h
    exact this ▸ hs
  | k + 1, s, t, hs, h => by
    rcases step_cases s with ⟨-, he⟩ | ⟨d, rest, -, he⟩ | ⟨w, rest, -, -, he⟩ | ⟨w, rest, i, -, -, he⟩ <;>
      · rw [run_succ k he] at h
        exact run_keeps hstep k _ t (hstep _ _ hs he) h

end Sys2Proof.Machine
end

