-- ==== Sys2Proof/Tests/Slice0.lean ====
section
/-! SUPPORT. The model's own tests. Words and results are those of 95_test_vectors.md and of the tables of
30_encoding.md (each test names its source), and one theorem `test_witness_…` for every statement that has
hypotheses shows values that meet them. -/

namespace Sys2Proof.Tests

open Sys2Proof Sys2Proof.Machine

/-! ### Helpers -/

/-- An instance with these registers and these events at its port, which has done nothing yet. -/
def instanceWith (x : Regs) (events : List HostEvent) : State := ⟨x, [], events, [], 0⟩

/-- The same with one command word at the port. -/
def atPort (x : Regs) (w : Command) : State := instanceWith x [.command w]

/-- The registers and the responses after one step. -/
def after (s : State) : Option (Regs × List Response) :=
  match step s with
  | .next t => some (t.regs, t.responses)
  | .fault _ => none
  | .refused _ => none

/-- The registers, the `ok` bits and the draws after one step: what a zero divisor leaves determined. -/
def afterDraw (s : State) : Option (Regs × List Bool × Nat) :=
  match step s with
  | .next t => some (t.regs, t.responses.map (·.ok), t.draws)
  | .fault _ => none
  | .refused _ => none

/-- The decoder's answer, or none for an illegal word. -/
def decoded (w : Command) : Option Instr := (decode w).toOption

/-- The start state of V-INIT, V-WR, V-RD. -/
def midRun : Regs := ⟨0x00020000#32, 0x00008000#32, 0x00004000#32, 0x0000028F#32, 0x000004CB#32, 0xFFFFE000#32,
  0x00640000#32, 0xFF9C0000#32⟩

/-- The configuration of V-CALC-5. -/
def tuned : Regs := ⟨0x00020000#32, 0x00008000#32, 0x00004000#32, 0x0000028F#32, 0#32, 0#32, 0x00640000#32,
  0xFF9C0000#32⟩

/-- The configuration of V-CALC-9. -/
def halves : Regs := ⟨0x00008000#32, 0#32, 0x00010000#32, 0x00020000#32, 0#32, 0#32, 0x00640000#32, 0xFF9C0000#32⟩

/-- The configuration of V-CALC-7: `Min` above `Max`. -/
def crossed : Regs := ⟨0x00010000#32, 0#32, 0#32, 0x00010000#32, 0#32, 0#32, 0xFFFB0000#32, 0x00050000#32⟩

/-- The configuration of L1-9: `Dt = 0`. -/
def stopped : Regs := ⟨0x00010000#32, 0#32, 0x00010000#32, 0#32, 0#32, 0#32, 0x00640000#32, 0xFF9C0000#32⟩

/-! ### Well-formedness: the one check refuses (R42, R48 (b)) -/

theorem test_wellFormed_refuses_wr_8 : (Instr.wr 8#4 5#32).wellFormed = false := by decide
theorem test_wellFormed_refuses_rd_15 : (Instr.rd 15#4).wellFormed = false := by decide
theorem test_wellFormed_accepts_index_7 :
    (Instr.wr 7#4 0#32).wellFormed = true ∧ (Instr.rd 7#4).wellFormed = true := by decide
theorem test_ill_formed_encodes_to_no_instruction :
    decoded (encode (.wr 8#4 5#32)) = none ∧ decoded (encode (.rd 8#4)) = none := by decide

/-! ### Decoding: the words of V-DECODE and V-FRAC, written from the formats of R41 -/

theorem test_decode_init : decoded 0x100000000000000000#72 = some .init := by decide
theorem test_decode_wr :
    decoded 0x27FF9C000000000000#72 = some (.wr 7#4 0xFF9C0000#32) ∧
    decoded 0x200000000000000000#72 = some (.wr 0#4 0#32) := by decide
theorem test_decode_rd : decoded 0x350000000000000000#72 = some (.rd 5#4) := by decide
theorem test_decode_calc :
    decoded 0x40FFFFFFFFFFFFFFFF#72 = some (.calculate 0xFFFFFFFF#32 0xFFFFFFFF#32) ∧
    decoded 0x400001000000004000#72 = some (.calculate 0x00010000#32 0x00004000#32) := by decide
theorem test_decode_fromint : decoded 0x80FFFFFFFF00000000#72 = some (.fromint 0xFFFFFFFF#32) := by decide
theorem test_decode_frac : decoded 0x900001800000000000#72 = some (.frac 0x00018000#32) := by decide
theorem test_decode_mul : decoded 0xA0FFFF800000008000#72 = some (.mul 0xFFFF8000#32 0x00008000#32) := by decide
theorem test_decode_div : decoded 0xB00001000000000000#72 = some (.div 0x00010000#32 0#32) := by decide
theorem test_decode_reserved_opcodes :
    [0x000000000000000000#72, 0x500000000000000000#72, 0x600000000000000000#72, 0x700000000000000000#72,
      0xC00000000000000000#72, 0xD00000000000000000#72, 0xE00000000000000000#72,
      0xFFFFFFFFFFFFFFFFFF#72].map decoded = List.replicate 8 none := by decide
theorem test_decode_must_be_zero_fields :
    [0x110000000000000000#72, 0x100000000100000000#72, 0x100000000000000001#72, 0x280000000500000000#72,
      0x2F0000000500000000#72, 0x230000028F00000001#72, 0x380000000000000000#72, 0x340000000100000000#72,
      0x340000000080000000#72, 0x410000000500000005#72, 0x880000000A00000000#72, 0x800000000A00000001#72,
      0x900000000500000001#72, 0xA40001000000010000#72, 0xB10001000000010000#72].map decoded =
    List.replicate 15 none := by decide

/-! ### Stored forms (R32, R33; the byte-stream lines of V-DECODE) -/

theorem test_command_bytes :
    commandBytes 0x27FF9C000000000000#72 = [0x27#8, 0xFF#8, 0x9C#8, 0#8, 0#8, 0#8, 0#8, 0#8, 0#8] := by decide
theorem test_response_bytes :
    Response.bytes ⟨true, 0x000A0000#32⟩ = [0x01#8, 0x00#8, 0x0A#8, 0x00#8, 0x00#8] ∧
    Response.bytes ⟨false, 0#32⟩ = [0#8, 0#8, 0#8, 0#8, 0#8] := by decide
theorem test_decode_bytes :
    (decodeBytes [0x40#8, 0x00#8, 0x0A#8, 0#8, 0#8, 0#8, 0#8, 0#8, 0#8, 0x99#8]).toOption =
      some (.calculate 0x000A0000#32 0#32, [0x99#8]) := by decide
theorem test_partial_command_is_no_program :
    (commandsOfBytes (List.replicate 8 0x10#8)).toOption = none ∧
    (commandsOfBytes (List.replicate 10 0x10#8)).toOption = none := by decide
theorem test_table_word :
    decodeTableWord 72 0x900001800000000000 = some (.frac 0x00018000#32) ∧
    decodeTableWord 72 0x000000000000000000 = none := by decide

/-! ### One step of each command -/

/-- V-INIT: all eight registers zero. -/
theorem test_init : after (atPort midRun 0x100000000000000000#72) =
    some (⟨0#32, 0#32, 0#32, 0#32, 0#32, 0#32, 0#32, 0#32⟩, [⟨true, 0#32⟩]) := by decide

/-- V-WR: `wr preverror, 0x12345678`. -/
theorem test_wr : after (atPort midRun 0x251234567800000000#72) =
    some ({ midRun with prevError := 0x12345678#32 }, [⟨true, 0#32⟩]) := by decide

/-- V-WR: `wr kp, i(-1)`: a negative gain is accepted. -/
theorem test_wr_kp : after (atPort midRun 0x20FFFF000000000000#72) =
    some ({ midRun with kp := 0xFFFF0000#32 }, [⟨true, 0#32⟩]) := by decide

/-- V-RD: `rd integral`, `rd min`. -/
theorem test_rd : after (atPort midRun 0x340000000000000000#72) = some (midRun, [⟨true, 0x000004CB#32⟩]) ∧
    after (atPort midRun 0x370000000000000000#72) = some (midRun, [⟨true, 0xFF9C0000#32⟩]) := by decide

/-- V-CALC-5, call 1: all three terms. -/
theorem test_calc_three_terms : after (atPort tuned 0x400001000000000000#72) =
    some ({ tuned with integral := 0x0000028F#32, prevError := 0x00010000#32 }, [⟨true, 0x001B04CB#32⟩]) := by
  decide +kernel

/-- V-CALC-9, call 2: a product rounds down and a quotient rounds toward zero inside one `CALC` (decision D9). -/
theorem test_calc_two_roundings :
    after (atPort { halves with integral := 0xFFFFFFFE#32, prevError := 0xFFFFFFFF#32 } 0x400000000000000004#72) =
    some ({ halves with integral := 0xFFFFFFF6#32, prevError := 0xFFFFFFFC#32 }, [⟨true, 0xFFFFFFFD#32⟩]) := by
  decide +kernel

/-- V-FROMINT: the most negative 16-bit integer, and an overflow. -/
theorem test_fromint : after (atPort midRun 0x80FFFF800000000000#72) = some (midRun, [⟨true, 0x80000000#32⟩]) ∧
    after (atPort midRun 0x801234567800000000#72) = some (midRun, [⟨true, 0x56780000#32⟩]) := by decide +kernel

/-- V-FRAC: a negative operand. -/
theorem test_frac : after (atPort midRun 0x90FFFF800000000000#72) = some (midRun, [⟨true, 0x00008000#32⟩]) := by
  decide +kernel

/-- V-MUL: floor of a negative product, where truncation gives 0. -/
theorem test_mul_rounds_down : after (atPort midRun 0xA0FFFFFFFF00000001#72) =
    some (midRun, [⟨true, 0xFFFFFFFF#32⟩]) := by decide +kernel

/-- V-MUL: 182.0 squared wraps. -/
theorem test_mul_wraps : after (atPort midRun 0xA000B6000000B60000#72) =
    some (midRun, [⟨true, 0x81640000#32⟩]) := by decide +kernel

/-- V-DIV: -1.0 / 3.0 toward zero (decision D9), and -32768.0 / -1.0 wraps. -/
theorem test_div : after (atPort midRun 0xB0FFFF000000030000#72) = some (midRun, [⟨true, 0xFFFFAAAB#32⟩]) ∧
    after (atPort midRun 0xB080000000FFFF0000#72) = some (midRun, [⟨true, 0x80000000#32⟩]) := by decide +kernel

/-- V-DIV: a zero divisor completes with `ok = 1`, changes no register and counts a draw. -/
theorem test_div_by_zero : afterDraw (atPort midRun 0xB00001000000000000#72) = some (midRun, [true], 1) := rfl

/-! ### The clamp, a zero `Dt`, an illegal word, reset -/

/-- V-CALC-7: `Min` above `Max`; a sum equal to `Max` gives `Min`, a sum equal to `Min` gives `Max`. -/
theorem test_clamp_crossed : clamp 0xFFFB0000#32 crossed.min crossed.max = 0x00050000#32 ∧
    clamp 0x00050000#32 crossed.min crossed.max = 0xFFFB0000#32 := by decide

/-- V-CALC-4: equality does not clamp, one unit more does. -/
theorem test_clamp_boundary : clamp 0x00640000#32 0xFF9C0000#32 0x00640000#32 = 0x00640000#32 ∧
    clamp 0x0064000A#32 0xFF9C0000#32 0x00640000#32 = 0x00640000#32 ∧
    clamp 0xFF9BFFF6#32 0xFF9C0000#32 0x00640000#32 = 0xFF9C0000#32 := by decide

/-- L1-9: `Dt = 0`: `ok = 1`, `Integral` unchanged, `PrevError` the error. -/
theorem test_calc_zero_dt : afterDraw (atPort stopped 0x400001000000000000#72) =
    some ({ stopped with prevError := 0x00010000#32 }, [true], 1) := rfl

/-- P5 line 10: a `CALC` with `R = 2` is refused and writes nothing. -/
theorem test_illegal_word : after (atPort midRun 0x420002000000010000#72) = some (midRun, [⟨false, 0#32⟩]) := by
  decide

/-- V-ADD, V-SUB, V-CMP: the wraps and the sign. -/
theorem test_add_sub_compare :
    add32 0x4E200000#32 0x4E200000#32 = 0x9C400000#32 ∧ sub32 0x7FFFFFFF#32 0x80000000#32 = 0xFFFFFFFF#32 ∧
    gts 0x00000001#32 0xFFFFFFFF#32 = true ∧ gts 0x00640000#32 0x00640000#32 = false := by decide +kernel

/-- R103, R120: reset with a `CALC` in flight zeroes the registers and responds nothing. -/
theorem test_reset : after (instanceWith midRun [.reset (some 0x400001000000000000#72)]) =
    some (⟨0#32, 0#32, 0#32, 0#32, 0#32, 0#32, 0#32, 0#32⟩, []) := by decide

/-- The first step after reset runs the word placed (`fromint -100` of P4). -/
theorem test_first_step_after_reset : after (State.reset.withFetchWord 72 0x80FFFFFF9C00000000) =
    some (Regs.zero, [⟨true, 0xFF9C0000#32⟩]) := by decide +kernel

/-! ### The host's side -/

/-- V-FROMFLOAT: 0.1, -0.1, the ties 5·2^-17 and -5·2^-17. -/
theorem test_fromFloat : fromFloat (1 / 10) = some 0x0000199A#32 ∧ fromFloat (-1 / 10) = some 0xFFFFE666#32 ∧
    fromFloat (5 / 2 ^ 17) = some 0x00000003#32 ∧ fromFloat (-5 / 2 ^ 17) = some 0xFFFFFFFD#32 := by decide +kernel

/-- R69: the two ends of the range. -/
theorem test_fromFloat_ends : fromFloat (-32768) = some 0x80000000#32 ∧ fromFloat 32768 = none ∧
    fromFloat (3276799998 / 100000) = some 0x7FFFFFFF#32 := by decide +kernel

/-- L1-2: `ToFloat(FromInt(-32768))`. -/
theorem test_toFloat : toFloat 0x80000000#32 = -32768 ∧ toFloat 0xFFFF8000#32 = -1 / 2 := by decide +kernel

/-- P3 lines 4, 9 and 10; comments and case (R53). -/
theorem test_assemble :
    (assembleLine "wr dt, f(0.01)".toList).toOption = some (some 0x230000028F00000000#72) ∧
    (assembleLine "  CALC f(1.0), f(1.125) ; tick".toList).toOption = some (some 0x400001000000012000#72) ∧
    (assembleLine "fromint -100".toList).toOption = some (some 0x80FFFFFF9C00000000#72) ∧
    (assembleLine "; nothing".toList).toOption = some none ∧
    (assembleLine ".word72 280000000500000000".toList).toOption = some (some 0x280000000500000000#72) := by
  decide +kernel

/-- R53, R54: what the assembler refuses; the first two are the model's choice (assumption log 9). -/
theorem test_assemble_refuses :
    ["frac i(0x10)", "wr kp, f(1e-3)", "nop", "rd x8", "rd kp, ki", "frac 0x123456789", "frac 4294967296", "frac i(32768)", "wr kp, f(32768.0)",
      ".word72 12"].map (fun l => (assembleLine l.toList).toOption) = List.replicate 10 none := by decide +kernel

/-- R53: a legal and an illegal word, there and back. -/
theorem test_disassemble :
    disassemble 0x25123456AB00000000#72 = "wr preverror, 0x123456AB".toList ∧
    disassemble 0x500000000000000000#72 = ".word72 500000000000000000".toList ∧
    (assembleLine (disassemble 0x400001000000004000#72)).toOption = some (some 0x400001000000004000#72) ∧
    (assembleLine (disassemble 0xFFFFFFFFFFFFFFFFFF#72)).toOption = some (some 0xFFFFFFFFFFFFFFFFFF#72) := by
  decide +kernel

/-! ### Witnesses: values that meet the hypotheses of the statements -/

/-- The words of one opcode at the port: the first is legal, the others break one clause each. -/
def wordsOf (op : BitVec 4) : List Command :=
  [pack op 0#4 0#32 0#32, pack op 8#4 0#32 0#32, pack op 0#4 1#32 0#32, pack op 0#4 0#32 0x80000000#32]

/-- EncodeOfDecodeGivesTheWord: a word that decodes. -/
theorem test_witness_decodes : decode 0x27FF9C000000000000#72 = .ok (.wr 7#4 0xFF9C0000#32) := rfl

/-- WordsOutsideTheTableAreIllegalCommands, all of its illegal classes: an illegal word at the port. -/
theorem test_witness_illegal_at_port : ∀ w ∈ [0x500000000000000000#72, 0x280000000500000000#72,
      0x410000000500000005#72, 0x340000000100000000#72, 0x230000028F00000001#72],
    decode w = .error .illegalCommand ∧ (atPort midRun w).pending = .command w :: [] := by
  intro w hw
  simp only [List.mem_cons, List.not_mem_nil, or_false] at hw
  rcases hw with rfl | rfl | rfl | rfl | rfl <;> exact ⟨rfl, rfl⟩

/-- AtMostOneRowCoversAWord: a word covered by a row of the table. -/
theorem test_witness_covered :
    ∃ p ∈ opcodeTable, p.covers 0xB00001000000000000#72 = true := ⟨_, List.mem_of_getElem? (i := 7) rfl, by decide⟩

/-- ByteStreamsAreWholeNumbersOfCommands: a stream of two commands, the last byte of the second; a stream of no
whole number of commands is `test_partial_command_is_no_program`. -/
theorem test_witness_byte_stream :
    ∃ ws, commandsOfBytes (commandBytes 0x27FF9C000000000000#72 ++ commandBytes 0x400001000000004000#72) = .ok ws ∧
      ws[1]? = some 0x400001000000004000#72 ∧ 8 < 9 := ⟨_, rfl, rfl, by decide⟩

/-- The word clauses of the eight command statements: for each opcode, legal and illegal words at the port. -/
theorem test_witness_words_at_port : (∀ w : Command, (atPort tuned w).pending = .command w :: []) ∧
    ([0x1#4, 0x2#4, 0x3#4, 0x4#4, 0x8#4, 0x9#4, 0xA#4, 0xB#4].map fun op => (wordsOf op).map opField) =
      [0x1#4, 0x2#4, 0x3#4, 0x4#4, 0x8#4, 0x9#4, 0xA#4, 0xB#4].map fun op => List.replicate 4 op :=
  ⟨fun _ => rfl, by decide⟩

/-- Those words meet both branches of each clause: R is 0 in the first and 8 in the second, and so on. -/
theorem test_witness_word_branches : (wordsOf 0x3#4).map rField = [0#4, 8#4, 0#4, 0#4] ∧
    (wordsOf 0x3#4).map aField = [0#32, 0#32, 1#32, 0#32] ∧
    (wordsOf 0x3#4).map bField = [0#32, 0#32, 0#32, 0x80000000#32] := by decide

/-- InitZeroesTheStateRecord, its last clause, and CalcStraightAfterInitRespondsZero: two `INIT`s in a row. -/
theorem test_witness_two_inits : ∃ t u, exec .init (instanceWith midRun []) = .next t ∧ exec .init t = .next u :=
  ⟨_, _, rfl, rfl⟩

/-- WrWritesExactlyTheNamedRegister, RdReturnsTheNamedRegister: the indices at the edge, and the register read. -/
theorem test_witness_index_edges : (7#4 : RegIndex).toNat < 8 ∧ 8 ≤ (8#4 : RegIndex).toNat ∧
    midRun.toList[(7#4 : RegIndex).toNat]? = some 0xFF9C0000#32 ∧ midRun.toList[(8#4 : RegIndex).toNat]? = none := by
  decide

/-- CalcStraightAfterInitRespondsZero: registers that are all zero, and a step that resets them. -/
theorem test_witness_all_zero : State.reset.regs.toList = List.replicate 8 0#32 ∧
    ∃ t, step (instanceWith midRun [.reset none]) = .next t := ⟨rfl, _, rfl⟩

/-- CalcPerformsTheTenSteps: `Dt ≠ 0` and a word with the operands at the port, with `R = 0` and with `R = 1`. -/
theorem test_witness_calc : tuned.dt ≠ 0#32 ∧
    [0x400001000000004000#72, 0x410001000000004000#72].map (fun w => (opField w, aField w, bField w)) =
      List.replicate 2 (0x4#4, 0x00010000#32, 0x00004000#32) := by decide

/-- CalcWithZeroDtCompletesWithSomeQuotient and ZeroKdHidesTheDrawnQuotient. -/
theorem test_witness_zero_dt : stopped.dt = 0#32 ∧ Regs.zero.dt = 0#32 ∧ Regs.zero.kd = 0#32 := by decide

/-- DivRespondsTheTruncatedQuotient, NarrowingIsWraparound, DivIsTheTruncated64BitQuotient, DivHasTheListedIdentities
and DivRoundsTowardZeroForEverySign: divisors at the edges, with operands of equal and of different signs. -/
theorem test_witness_divisors : [1#32, 0xFFFFFFFF#32, 0x80000000#32, 0x7FFFFFFF#32].map (· != 0#32) =
    List.replicate 4 true := by decide

/-- NarrowingIsWraparound: a sum that fits at the edge and one that does not. -/
theorem test_witness_fits : (0x7FFFFFFE#32).toInt + (1#32).toInt ≤ 2 ^ 31 - 1 ∧
    ¬ (0x7FFFFFFF#32).toInt + (1#32).toInt ≤ 2 ^ 31 - 1 := by decide

/-- FromIntIsExactOn16BitIntegers: both ends of its range, and two words that share their low half. -/
theorem test_witness_fromInt : (0xFFFF8000#32).toInt = -32768 ∧ (0x00007FFF#32).toInt = 32767 ∧
    (0x12345678#32).extractLsb' 0 16 = (0x00005678#32).extractLsb' 0 16 := by decide

/-- ClampTestsMaxFirst, CalcResponseStaysWithinTheBounds, CalcWithMinAboveMaxNeverReturnsTheSum: sums above, at and
below the bounds, equal bounds, crossed bounds with `Dt ≠ 0` and with `Dt = 0`. -/
theorem test_witness_bounds :
    tuned.max.toInt < (0x0064000A#32).toInt ∧ (0xFF9BFFF6#32).toInt < tuned.min.toInt ∧
    tuned.min.toInt ≤ tuned.max.toInt ∧ Regs.zero.min.toInt ≤ Regs.zero.max.toInt ∧
    crossed.max.toInt < crossed.min.toInt ∧ crossed.dt ≠ 0#32 ∧
    stopped.min.toInt < stopped.max.toInt ∧
    { stopped with min := stopped.max, max := stopped.min }.max.toInt <
      { stopped with min := stopped.max, max := stopped.min }.min.toInt := by decide

/-- RepeatedErrorHasNoDerivativeTerm: a first `CALC` with `Dt ≠ 0`. -/
theorem test_witness_first_calc : tuned.dt ≠ 0#32 ∧
    ∃ t, exec (.calculate 0x00010000#32 0#32) (instanceWith tuned []) = .next t := ⟨by decide, _, rfl⟩

/-- AccumulatorIgnoresGainsAndBounds: two controllers that differ in gains and bounds and agree in the rest. -/
theorem test_witness_same_accumulator :
    let x := instanceWith { crossed with dt := 0x0000028F#32 } []
    let y := instanceWith tuned []
    x.pending = [] ∧ y.pending = [] ∧ x.regs.dt = y.regs.dt ∧ x.regs.integral = y.regs.integral ∧
      x.regs.prevError = y.regs.prevError ∧ x.regs ≠ y.regs := by decide

/-- NCalcsAddNTimesTheErrorToIntegral: three `CALC` words with `Dt` = 1.0, and more after them. -/
theorem test_witness_three_calcs : decode 0x404E20000000000000#72 = .ok (.calculate 0x4E200000#32 0#32) ∧
    crossed.dt = 0x00010000#32 ∧
    (instanceWith crossed (List.replicate 3 (.command 0x404E20000000000000#72) ++ [.reset none])).pending =
      List.replicate 3 (.command 0x404E20000000000000#72) ++ [.reset none] := ⟨rfl, rfl, rfl⟩

/-- CalcIsExactWhenNothingOverflows: V-CALC-5, call 1; an error at the edge of the range; the difference of the
errors alone breaks the condition (assumption log 8). -/
theorem test_witness_noOverflow : tuned.dt ≠ 0#32 ∧ noOverflow tuned 0x00010000#32 0#32 = true ∧
    noOverflow { Regs.zero with dt := 0x00010000#32 } 0x7FFFFFFF#32 0#32 = true ∧
    noOverflow { Regs.zero with dt := 0x7FFFFFFF#32, prevError := 0xFFFFFFFF#32 } 0x7FFFFFFF#32 0#32 = false := by
  decide +kernel

/-- StepRunsTheDecodedInstruction, EveryCommandGetsExactlyOneResponse: a legal word at the port. -/
theorem test_witness_legal_at_port :
    (atPort tuned 0xB00001000000000000#72).pending = .command 0xB00001000000000000#72 :: [] ∧
    decode 0xB00001000000000000#72 = .ok (.div 0x00010000#32 0#32) ∧
    isLegal 0xB00001000000000000#72 = true ∧ isLegal 0xB10001000000000000#72 = false := ⟨rfl, rfl, rfl, rfl⟩

/-- AnIdleBlockDoesNothing: nothing at the port. -/
theorem test_witness_idle : (instanceWith midRun []).pending = [] := rfl

/-- HardwareResetZeroesEveryRegister: a reset at the port, with a command in flight. -/
theorem test_witness_reset_at_port : (instanceWith midRun [.reset (some 0x400001000000000000#72)]).pending =
    .reset (some 0x400001000000000000#72) :: [] := rfl

/-- A state in the middle of a run: a command answered, an illegal word answered, a `MUL` at the port. -/
def inTheMiddle : State :=
  { regs := midRun, done := [.command 0x340000000000000000#72, .reset none, .command 0x500000000000000000#72],
    pending := [.command 0xA0FFFFFFFF00000001#72], responses := [⟨true, 0x000004CB#32⟩, ⟨false, 0#32⟩], draws := 3 }

/-- ResponsesAnswerTheCommandsInOrder: an accounted state with a next state. -/
theorem test_witness_accounted : Accounted inTheMiddle ∧ ∃ t, step inTheMiddle = .next t :=
  ⟨.cons (by decide) (.cons (by decide) .nil), _, rfl⟩

/-- PcCountsEveryCommandTaken: inside the program and at its end. -/
theorem test_witness_pc : inTheMiddle.pc < inTheMiddle.program.length ∧ (∃ t, step inTheMiddle = .next t) ∧
    State.reset.pc = State.reset.program.length ∧ ∃ t, step State.reset = .next t :=
  ⟨by decide, ⟨_, rfl⟩, by decide, _, rfl⟩

/-- OnlyItsWritersChangeARegister: a step that changes `Integral` and one that changes `Kp`. -/
theorem test_witness_register_changes :
    (∃ t, step (atPort tuned 0x400001000000000000#72) = .next t ∧ t.regs.read .integral ≠ tuned.read .integral) ∧
    (∃ t, step (instanceWith tuned [.reset none]) = .next t ∧ t.regs.read .kp ≠ tuned.read .kp) :=
  ⟨⟨_, rfl, by decide +kernel⟩, _, rfl, by decide⟩

/-- RdReturnsTheLatestWrite: commands that do not write `Dt`: another `WR`, a `CALC`, an illegal word. -/
theorem test_witness_not_writing : [0x250000000500000000#72, 0x400001000000000000#72, 0x2B0000000500000000#72].map
    (writesReg · .dt) = List.replicate 3 false := by decide

/-- PrimitivesCannotChangeALaterCalc: a primitive command that completes before a `CALC` with `Dt ≠ 0`. -/
theorem test_witness_primitive : (Instr.div 0x00010000#32 0#32).op ∈ [Op.fromint, Op.frac, Op.mul, Op.div] ∧
    tuned.dt ≠ 0#32 ∧ ∃ t, exec (.div 0x00010000#32 0#32) (instanceWith tuned []) = .next t :=
  ⟨by decide, by decide, _, rfl⟩

/-- ResultsDependOnlyOnRegistersAndCommand: two different states with the same registers, and both ways to meet its
second hypothesis. -/
theorem test_witness_same_registers : inTheMiddle.regs = (instanceWith midRun []).regs ∧
    inTheMiddle ≠ instanceWith midRun [] ∧ dividesByZero (.calculate 0#32 0#32) midRun = false ∧
    dividesByZero (.div 0#32 0#32) midRun = true ∧ inTheMiddle.draws = { instanceWith midRun [] with draws := 3 }.draws := by
  decide

/-- ObligationsKeptMeansNoDraw: a `CALC` and a `DIV` that keep the obligations, and two zero divisors. -/
theorem test_witness_obeys :
    (atPort tuned 0x400001000000000000#72).obeys = true ∧ (atPort tuned 0xB00001000000000001#72).obeys = true ∧
    (atPort stopped 0x400001000000000000#72).obeys = false ∧ (atPort tuned 0xB00001000000000000#72).obeys = false ∧
    dividesByZero (.calculate 0x00010000#32 0#32) stopped = true ∧ dividesByZero (.div 0x00010000#32 0#32) tuned = true := by
  decide

/-- WritesOfDifferentRegistersCommute and InstancesDoNotInterfere: two different registers, two instances. -/
theorem test_witness_different : Reg.max ≠ Reg.min ∧ (0 : Nat) ≠ 1 ∧
    ([inTheMiddle, instanceWith tuned []] : System)[1]? = some (instanceWith tuned []) := by decide

/-- AProgramOfNCommandsGivesNResponses, RdReturnsTheLatestWrite, IllegalCommandsLeaveNoTrace: nothing pending. -/
theorem test_witness_nothing_pending : State.reset.pending = [] := rfl

/-- FromFloatAndToFloatRoundTrip, LiteralsGiveTheWordsOfTheTable: numbers that have a word, and the ends of the
literal ranges. -/
theorem test_witness_literals : fromFloat (1 / 10) = some 0x0000199A#32 ∧
    Literal.value (.float (-1 / 10)) = some 0xFFFFE666#32 ∧ Literal.value (.dec (2 ^ 32 - 1)) = some 0xFFFFFFFF#32 ∧
    Literal.value (.dec (2 ^ 32)) = none ∧ Literal.value (.dec (-(2 ^ 31))) = some 0x80000000#32 ∧
    Literal.value (.int (-32768)) = some 0x80000000#32 ∧ Literal.value (.int 32768) = none := by decide +kernel

/-- AssemblerNeverMakesAnIllegalCommand: a line that assembles and is no `.word72` line. -/
theorem test_witness_line : (assembleLine "wr dt, f(0.01)".toList).toOption = some (some 0x230000028F00000000#72) ∧
    mnemonicOf (plainLine "wr dt, f(0.01)".toList) ≠ word72Text := by decide +kernel

end Sys2Proof.Tests
end

section
/-! PROOF. The accounting of commands and responses (00_scope.md R6; 20_memory.md R36; 30_encoding.md R50): what
the block answers to a word is an answer to it, and taking one event keeps the accounting. -/

namespace Sys2Proof

/-- What the decoder delivers is well formed: an index of 8 to 15 matches no row (R48 (b), R51). -/
theorem wellFormed_of_decode {w : Command} {i : Instr} (h : decode w = .ok i) : i.wellFormed = true := by
  rw [decode_by_fields] at h
  split_ifs at h with _ hwr hrd <;> cases h
  · rfl
  · obtain ⟨-, hindex, -⟩ := hwr
    exact hindex
  · obtain ⟨-, hindex, -⟩ := hrd
    exact hindex
  all_goals rfl

end Sys2Proof

namespace Sys2Proof.Machine

variable {w : Command} {s t : State}

/-! ### The response to a word answers it (R50) -/

/-- The refusal's response is the answer to an illegal word (R101). -/
theorem answers_of_illegal (h : decode w = .error .illegalCommand) : answers w ⟨false, 0#32⟩ = true := by
  simp [answers, h]

/-- The response to a decoded instruction is an answer to its word, whatever the state (R50). -/
theorem answers_responseTo {i : Instr} (s : State) (h : decode w = .ok i) :
    answers w (responseTo i s) = true := by
  have hwf := wellFormed_of_decode h
  cases i with
  | init => simp [answers, h, responseTo]
  | wr k v =>
    have hk : RegIndex.wellFormed k = true := hwf
    simp [answers, h, responseTo, hk]
  | rd k =>
    obtain ⟨r, hr⟩ := ofIndex_eq_some hwf
    simp [answers, h, responseTo, hr]
  | calculate sp pv => simp [answers, h, responseTo]
  | fromint n => simp [answers, h, responseTo]
  | frac a => simp [answers, h, responseTo]
  | mul a b => simp [answers, h, responseTo]
  | div a b =>
    by_cases hb : b = 0#32
    · simp [answers, h, responseTo, hb]
    · simp [answers, h, responseTo, hb, divide_nonzero]

/-! ### What keeps the accounting -/

/-- A reset is no command and has no response (R103, R120). -/
theorem accounted_of_reset {d : Option Command} (hs : Accounted s) (hdone : t.done = s.done ++ [.reset d])
    (hresp : t.responses = s.responses) : Accounted t := by
  simpa [Accounted, hdone, hresp] using hs

/-- A command taken with one response that answers it keeps the accounting (R36). -/
theorem accounted_of_command {r : Response} (hs : Accounted s) (hr : answers w r = true)
    (hdone : t.done = s.done ++ [.command w]) (hresp : t.responses = s.responses ++ [r]) : Accounted t := by
  have hone : List.Forall₂ (fun w r => answers w r = true) [w] [r] := .cons hr .nil
  simpa [Accounted, hdone, hresp] using List.rel_append hs hone

end Sys2Proof.Machine

open Sys2Proof Sys2Proof.Machine

/-- Settles O43, by what a step can do: an idle step and a reset add no command and no response, and a word taken
adds itself and one response that answers it. -/
theorem responsesAnswerTheCommandsInOrder : Obligations.ResponsesAnswerTheCommandsInOrder := by
  intro s t hs hstep
  rcases step_cases s with ⟨-, he⟩ | ⟨d, rest, -, he⟩ | ⟨w, rest, -, hw, he⟩ | ⟨w, rest, i, -, hw, he⟩ <;>
    obtain rfl := Host.Outcome.next.inj (he.symm.trans hstep)
  · exact hs
  · exact accounted_of_reset hs rfl rfl
  · exact accounted_of_command hs (answers_of_illegal hw) rfl rfl
  · exact accounted_of_command hs (answers_responseTo s hw) rfl rfl

/-- Settles O44: at reset no command has been taken and nothing has been answered. -/
theorem resetIsAccounted : Obligations.ResetIsAccounted := List.Forall₂.nil

end

section
/-! PROOF. What one instruction can change and what its answer depends on (10_state.md R10, R22, R24; section 4 of
40_fixed_point_primitives.md). -/

namespace Sys2Proof.Machine

/-! ### The writers of a register (R10) -/

/-- A `WR` whose index names a register writes exactly that one (R82). -/
theorem regsAfter_wr_some {k : RegIndex} {q : Reg} (v : Word) (x : Regs) (h : Reg.ofIndex k = some q) :
    regsAfter (.wr k v) x = x.write q v := by simp [regsAfter, h]

/-- A `WR` whose index names no register writes none (R48). -/
theorem regsAfter_wr_none {k : RegIndex} (v : Word) (x : Regs) (h : Reg.ofIndex k = none) :
    regsAfter (.wr k v) x = x := by simp [regsAfter, h]

/-- A `WR` leaves every register but the one its index names (R82). -/
theorem read_regsAfter_wr {k : RegIndex} {r : Reg} (v : Word) (x : Regs) (hk : k ≠ r.index) :
    (regsAfter (.wr k v) x).read r = x.read r := by
  cases hq : Reg.ofIndex k with
  | none => rw [regsAfter_wr_none v x hq]
  | some q =>
    have hrq : r ≠ q := by
      rintro rfl
      exact hk (index_of_ofIndex k r hq).symm
    rw [regsAfter_wr_some v x hq, read_write_other v q r x hrq]

/-- A `CALC` leaves every register but `Integral` and `PrevError` (R84). -/
theorem read_regsAfter_calculate {r : Reg} (sp pv : Word) (x : Regs) (hi : r ≠ .integral) (he : r ≠ .prevError) :
    (regsAfter (.calculate sp pv) x).read r = x.read r := by
  cases r with
  | integral => exact absurd rfl hi
  | prevError => exact absurd rfl he
  | kp | ki | kd | dt | max | min => rfl

/-- An instruction that changes a register is a writer of it (R10's column "written by"). -/
theorem writer_of_read_regsAfter_ne {i : Instr} {x : Regs} {r : Reg} (h : (regsAfter i x).read r ≠ x.read r) :
    i = .init ∨ (∃ v, i = .wr r.index v) ∨
      ((r = .integral ∨ r = .prevError) ∧ ∃ sp pv, i = .calculate sp pv) := by
  cases i with
  | init => exact .inl rfl
  | wr k v =>
    have hk : k = r.index := by
      by_contra hk
      exact h (read_regsAfter_wr v x hk)
    exact .inr (.inl ⟨v, by rw [hk]⟩)
  | calculate sp pv =>
    have hr : r = .integral ∨ r = .prevError := by
      by_contra hr
      obtain ⟨hi, he⟩ := not_or.1 hr
      exact h (read_regsAfter_calculate sp pv x hi he)
    exact .inr (.inr ⟨hr, sp, pv, rfl⟩)
  | rd _ | fromint _ | frac _ | mul _ _ | div _ _ => exact absurd rfl h

/-- The primitives write no register (R10, R76 to R79). -/
theorem regsAfter_primitive {i : Instr} (x : Regs) (h : i.op ∈ [Op.fromint, Op.frac, Op.mul, Op.div]) :
    regsAfter i x = x := by
  cases i with
  | init | wr _ _ | rd _ | calculate _ _ => simp [Instr.op] at h
  | fromint _ | frac _ | mul _ _ | div _ _ => rfl

/-- The registers after an instruction, from the outcome. -/
theorem regs_of_exec {i : Instr} {s t : State} (h : exec i s = .next t) : t.regs = regsAfter i s.regs := by
  obtain rfl := Host.Outcome.next.inj ((exec_eq i s).symm.trans h)
  rfl

/-! ### What an answer depends on (R22) -/

/-- Two states with the same registers go to the same registers and give the same response, where no draw
separates them. -/
theorem exec_congr {i : Instr} {s₁ s₂ : State} (hregs : s₁.regs = s₂.regs)
    (hdraw : dividesByZero i s₁.regs = false ∨ s₁.draws = s₂.draws) :
    ∃ t₁ t₂ r, exec i s₁ = .next t₁ ∧ exec i s₂ = .next t₂ ∧ t₁.regs = t₂.regs ∧
      t₁.responses = s₁.responses ++ [r] ∧ t₂.responses = s₂.responses ++ [r] := by
  have hresp := responseTo_congr i s₁ s₂ hregs hdraw
  exact ⟨_, _, responseTo i s₁, exec_eq i s₁, exec_eq i s₂, congrArg (regsAfter i) hregs, rfl, by rw [hresp]⟩

end Sys2Proof.Machine

open Sys2Proof Sys2Proof.Machine

/-- Settles O47, by what a step can do: an idle step and an illegal word keep the registers, and a command that changes
one is a writer of it. -/
theorem onlyItsWritersChangeARegister : Obligations.OnlyItsWritersChangeARegister := by
  intro s t r hstep hne
  rcases step_cases s with ⟨-, he⟩ | ⟨d, rest, hp, he⟩ | ⟨w, rest, -, -, he⟩ | ⟨w, rest, i, hp, hw, he⟩ <;>
    obtain rfl := Host.Outcome.next.inj (he.symm.trans hstep)
  · exact absurd rfl hne
  · exact .inl ⟨d, rest, hp⟩
  · exact absurd rfl hne
  · exact .inr ⟨w, rest, i, hp, hw, writer_of_read_regsAfter_ne hne⟩

/-- Settles O50: the registers after a command and its response are functions of the registers, the command and the
draw. -/
theorem resultsDependOnlyOnRegistersAndCommand : Obligations.ResultsDependOnlyOnRegistersAndCommand :=
  fun _ _ _ hregs hdraw => exec_congr hregs hdraw

/-- Settles O49: a primitive leaves the registers, and a `CALC` with `Dt ≠ 0` depends on nothing else. -/
theorem primitivesCannotChangeALaterCalc : Obligations.PrimitivesCannotChangeALaterCalc := by
  intro s s' i sp pv hi hdt hstep
  have hkept : s.regs = s'.regs := by rw [regs_of_exec hstep, regsAfter_primitive s.regs hi]
  have hnodraw : dividesByZero (.calculate sp pv) s.regs = false := by simp [dividesByZero, hdt]
  obtain ⟨t, t', r, ht, ht', hregs, hresp⟩ := exec_congr hkept (.inl hnodraw)
  exact ⟨t, t', r, ht, ht', hregs.symm, hresp⟩

end

section
/-! PROOF. Runs: the program and its index (10_state.md R20), the state right after reset (R23), and the accumulator
over equal `CALC`s with `Dt` = 1.0 (R16, R87). -/

namespace Sys2Proof.Machine

/-- A step either finds nothing and changes nothing, or moves the first pending event to the end of `done` (R20). -/
theorem step_queues {s t : State} (h : step s = .next t) :
    (s.pending = [] ∧ t = s) ∨
      ∃ e rest, s.pending = e :: rest ∧ t.done = s.done ++ [e] ∧ t.pending = rest := by
  rcases step_cases s with ⟨hp, he⟩ | ⟨d, rest, hp, he⟩ | ⟨w, rest, hp, -, he⟩ | ⟨w, rest, i, hp, -, he⟩ <;>
    obtain rfl := Host.Outcome.next.inj (he.symm.trans h)
  · exact .inl ⟨hp, rfl⟩
  · exact .inr ⟨.reset d, rest, hp, rfl, rfl⟩
  · exact .inr ⟨.command w, rest, hp, rfl, rfl⟩
  · exact .inr ⟨.command w, rest, hp, rfl, rfl⟩

/-- The program is what `pc` has passed and what is pending. -/
theorem program_length (s : State) : s.program.length = s.pc + s.pending.length := List.length_append

/-- A product with 1.0 is the other factor (R73). -/
@[simp] theorem mul32_one (v : Word) : mul v 0x00010000#32 = v := by
  have hone : (0x00010000#32).toInt = 2 ^ 16 := by decide
  have hasr : asr (v.toInt * 2 ^ 16) Config.fracBits = v.toInt := Int.mul_ediv_cancel _ (by decide)
  rw [mul, hone, hasr, wrap32_toInt]

/-- With `Dt` = 1.0 a `CALC` adds its error to `Integral` (R87). -/
theorem integral_regsAfter_calculate {x : Regs} (sp pv : Word) (hdt : x.dt = 0x00010000#32) :
    (regsAfter (.calculate sp pv) x).integral = x.integral + (sp - pv) := by
  simp [regsAfter, hdt, add32_eq, sub32_eq]

/-- A step with a legal word at the port takes it and leaves the registers its instruction leaves. -/
theorem step_of_decode {s : State} {w : Command} {i : Instr} {rest : List HostEvent}
    (hp : s.pending = .command w :: rest) (hw : decode w = .ok i) :
    ∃ t, step s = .next t ∧ t.pending = rest ∧ t.regs = regsAfter i s.regs := by
  rw [step_of_command hp, hw]
  exact ⟨_, exec_eq i _, rfl, rfl⟩

end Sys2Proof.Machine

open Sys2Proof Sys2Proof.Machine

/-- Settles O45: a step takes one event or finds none. -/
theorem pcCountsEveryCommandTaken : Obligations.PcCountsEveryCommandTaken := by
  intro s t hstep
  have hlen := program_length s
  rcases step_queues hstep with ⟨hp, rfl⟩ | ⟨e, rest, hp, hdone, hrest⟩
  · simp only [hp, List.length_nil] at hlen
    exact ⟨rfl, by omega, fun _ => rfl, by omega⟩
  · simp only [hp, List.length_cons] at hlen
    have hprogram : t.program = s.program := by simp [State.program, hdone, hrest, hp]
    have hpc : t.pc = s.pc + 1 := by simp [State.pc, hdone]
    exact ⟨hprogram, fun _ => hpc, by omega, by omega⟩

/-- Settles O35, by induction on the number of `CALC`s: each adds its error and leaves `Dt`. -/
theorem nCalcsAddNTimesTheErrorToIntegral : Obligations.NCalcsAddNTimesTheErrorToIntegral := by
  intro n
  induction n with
  | zero =>
    intro s w sp pv rest _ _ hp
    exact ⟨s, rfl, hp, by simp⟩
  | succ n ih =>
    intro s w sp pv rest hw hdt hp
    obtain ⟨u, hstep, hu, hregs⟩ := step_of_decode hp hw
    have hudt : u.regs.dt = 0x00010000#32 := by rw [hregs]; exact hdt
    obtain ⟨t, hrun, ht, hintegral⟩ := ih u w sp pv rest hw hudt hu
    refine ⟨t, (run_succ n hstep).trans hrun, ht, ?_⟩
    calc t.regs.integral
        = s.regs.integral + (sp - pv) + BitVec.ofNat 32 n * (sp - pv) := by
          rw [hintegral, hregs, integral_regsAfter_calculate sp pv hdt]
      _ = s.regs.integral + BitVec.ofNat 32 (n + 1) * (sp - pv) := by
          rw [BitVec.ofNat_add, BitVec.add_mul, BitVec.one_mul]
          ring

/-- Settles O42, as `State.reset` is written. -/
theorem theResetStateIsAllZero : Obligations.TheResetStateIsAllZero := ⟨rfl, rfl, rfl, rfl, rfl⟩

end

section
/-! PROOF. Several blocks side by side (10_state.md R25): a step of one is a function of its own state, applied
at its place. -/

namespace Sys2Proof.Machine

/-- Every step answers a next state (R100, R101). -/
theorem step_next (s : State) : ∃ t, step s = .next t := by
  rcases step_cases s with ⟨-, he⟩ | ⟨_, _, -, he⟩ | ⟨_, _, -, -, he⟩ | ⟨_, _, _, -, -, he⟩ <;> exact ⟨_, he⟩

/-- A step of the block at place `k` applies the step function at place `k` (R25). -/
theorem stepAt_eq_modify {next : State → State} (hnext : ∀ s, step s = .next (next s)) (sys : System) (k : Nat) :
    sys.stepAt k = .next (sys.modify k next) := by
  unfold System.stepAt
  cases hk : sys[k]? with
  | none => simp [List.modify_eq_set_getElem?, hk]
  | some s => simp [List.modify_eq_set_getElem?, hk, hnext]

/-- Changes at two different places commute. -/
theorem modify_comm {α : Type} (f : α → α) (l : List α) {j k : Nat} (h : j ≠ k) :
    (l.modify j f).modify k f = (l.modify k f).modify j f := by
  apply List.ext_getElem?
  intro i
  by_cases hj : j = i
  · have hk : k ≠ i := fun hk => h (hj.trans hk.symm)
    simp [hj, hk]
  · simp [List.getElem?_modify, hj]

end Sys2Proof.Machine

open Sys2Proof Sys2Proof.Machine

/-- Settles O54: both orders apply the one step function at the same two places. -/
theorem instancesDoNotInterfere : Obligations.InstancesDoNotInterfere := by
  intro sys j k hjk
  choose next hnext using step_next
  refine ⟨sys.modify j next, sys.modify k next, (sys.modify j next).modify k next, stepAt_eq_modify hnext sys j,
    stepAt_eq_modify hnext _ k, stepAt_eq_modify hnext sys k, ?_, ?_⟩
  · rw [modify_comm next sys hjk]
    exact stepAt_eq_modify hnext _ j
  · intro l hl
    simp [hl.symm]

end

section
/-! PROOF. Stored forms and byte streams (20_memory.md R32, R33): a command word is its nine bytes side by side, and
a stream is a whole number of them or is refused. -/

namespace Sys2Proof

/-! ### A word and its nine bytes (R32) -/

/-- A slice of a slice is a slice of the word. -/
theorem extractLsb'_extractLsb'_add {n m start len : Nat} (x : BitVec n) (base : Nat) (h : start + len ≤ m) :
    (x.extractLsb' base m).extractLsb' start len = x.extractLsb' (base + start) len := by
  apply BitVec.eq_of_getLsbD_eq
  intro i hi
  have hbound : start + i < m := by omega
  simp [hi, hbound, Nat.add_assoc]

/-- The nine bytes of a word side by side are the word. -/
theorem commandOfBytes_extractLsb' (w : Command) :
    commandOfBytes (w.extractLsb' 64 8) (w.extractLsb' 56 8) (w.extractLsb' 48 8) (w.extractLsb' 40 8)
      (w.extractLsb' 32 8) (w.extractLsb' 24 8) (w.extractLsb' 16 8) (w.extractLsb' 8 8) (w.extractLsb' 0 8) = w := by
  unfold commandOfBytes
  simp (disch := decide) only [BitVec.extractLsb'_append_extractLsb'_eq_extractLsb']
  exact BitVec.extractLsb'_eq_self

/-- Any nine bytes are the stored form of the word they make. -/
theorem commandBytes_commandOfBytes (b0 b1 b2 b3 b4 b5 b6 b7 b8 : Byte) :
    commandBytes (commandOfBytes b0 b1 b2 b3 b4 b5 b6 b7 b8) = [b0, b1, b2, b3, b4, b5, b6, b7, b8] := by
  unfold commandBytes commandOfBytes
  simp (disch := decide) only [BitVec.extractLsb'_append_eq_of_le, BitVec.extractLsb'_append_eq_of_add_le,
    BitVec.extractLsb'_eq_self]
  simp

@[simp] theorem length_commandBytes (w : Command) : (commandBytes w).length = 9 := rfl

/-- The first stored byte holds `OP` and `R`. -/
theorem opField_append_rField (w : Command) : opField w ++ rField w = w.extractLsb' 64 8 :=
  BitVec.extractLsb'_append_extractLsb'_eq_extractLsb' rfl

/-- A byte of `A` is the byte of the word 32 bits higher. -/
theorem extractLsb'_aField (w : Command) {start : Nat} (h : start + 8 ≤ 32) :
    (aField w).extractLsb' start 8 = w.extractLsb' (32 + start) 8 :=
  extractLsb'_extractLsb'_add w 32 h

/-- A byte of `B` is that byte of the word. -/
theorem extractLsb'_bField (w : Command) {start : Nat} (h : start + 8 ≤ 32) :
    (bField w).extractLsb' start 8 = w.extractLsb' start 8 :=
  BitVec.extractLsb'_extractLsb'_of_le h

/-! ### A stream and its commands (R33) -/

/-- Nine bytes or more begin with a stored command. -/
theorem exists_commandBytes_append {bs : List Byte} (h : 9 ≤ bs.length) : ∃ w rest, bs = commandBytes w ++ rest := by
  rcases bs with _ | ⟨b0, _ | ⟨b1, _ | ⟨b2, _ | ⟨b3, _ | ⟨b4, _ | ⟨b5, _ | ⟨b6, _ | ⟨b7, _ | ⟨b8, rest⟩⟩⟩⟩⟩⟩⟩⟩⟩
  case cons.cons.cons.cons.cons.cons.cons.cons.cons =>
    exact ⟨commandOfBytes b0 b1 b2 b3 b4 b5 b6 b7 b8, rest, by rw [commandBytes_commandOfBytes]; rfl⟩
  all_goals simp at h

/-- A stored command at the head of a stream is read first. -/
theorem commandsOfBytes_commandBytes_append (w : Command) (rest : List Byte) :
    commandsOfBytes (commandBytes w ++ rest) = (commandsOfBytes rest).map (w :: ·) := by
  cases h : commandsOfBytes rest <;>
    simp [commandBytes, commandsOfBytes, commandOfBytes_extractLsb', h, Except.map]

/-- Some bytes, but fewer than nine, are refused. -/
theorem commandsOfBytes_of_short {bs : List Byte} (hne : bs ≠ []) (hlen : bs.length < 9) :
    commandsOfBytes bs = .error .notWholeCommands := by
  unfold commandsOfBytes
  split
  · exact absurd rfl hne
  · simp only [List.length_cons] at hlen
    omega
  · rfl

/-- The stored forms of commands, one after another, are read as these commands. -/
@[simp] theorem commandsOfBytes_flatMap (ws : List Command) :
    commandsOfBytes (ws.flatMap commandBytes) = .ok ws := by
  induction ws with
  | nil => rfl
  | cons w ws ih => rw [List.flatMap_cons, commandsOfBytes_commandBytes_append, ih]; rfl

/-- Every byte stream is the stored form of some commands, or is refused with a length that is no multiple of 9. -/
theorem byteStream_cases (bs : List Byte) :
    (∃ ws : List Command, bs = ws.flatMap commandBytes) ∨
      (commandsOfBytes bs = .error .notWholeCommands ∧ bs.length % 9 ≠ 0) := by
  by_cases hlong : 9 ≤ bs.length
  · obtain ⟨w, rest, rfl⟩ := exists_commandBytes_append hlong
    rcases byteStream_cases rest with ⟨ws, rfl⟩ | ⟨herr, hlen⟩
    · exact .inl ⟨w :: ws, rfl⟩
    · exact .inr ⟨by rw [commandsOfBytes_commandBytes_append, herr]; rfl, by simpa using hlen⟩
  · by_cases hne : bs = []
    · exact .inl ⟨[], hne⟩
    · have hpos := List.length_pos_iff.2 hne
      exact .inr ⟨commandsOfBytes_of_short hne (by omega), by omega⟩
termination_by bs.length

/-- Byte `9k + j` of the stored commands is byte `j` of command `k`. -/
theorem getElem?_flatMap_commandBytes {ws : List Command} {k j : Nat} {w : Command} (hw : ws[k]? = some w)
    (hj : j < 9) : (ws.flatMap commandBytes)[9 * k + j]? = (commandBytes w)[j]? := by
  induction ws generalizing k with
  | nil => simp at hw
  | cons v vs ih =>
    rw [List.flatMap_cons]
    cases k with
    | zero =>
      obtain rfl : v = w := by simpa using hw
      rw [Nat.mul_zero, Nat.zero_add, List.getElem?_append_left hj]
    | succ k =>
      rw [List.getElem?_append_right (by rw [length_commandBytes]; omega), ← ih (by simpa using hw)]
      congr 1
      rw [length_commandBytes]
      omega

end Sys2Proof

open Sys2Proof Sys2Proof.Machine

/-- Settles O7: a stream is the stored form of some commands or is refused, and the stored form is read back as them. -/
theorem byteStreamsAreWholeNumbersOfCommands : Obligations.ByteStreamsAreWholeNumbersOfCommands := by
  have hread : ∀ (bs : List Byte) (ws : List Command), commandsOfBytes bs = .ok ws ↔ bs = ws.flatMap commandBytes := by
    intro bs ws
    constructor
    · intro h
      rcases byteStream_cases bs with ⟨vs, rfl⟩ | ⟨herr, -⟩
      · rw [Except.ok.inj ((commandsOfBytes_flatMap vs).symm.trans h)]
      · cases herr.symm.trans h
    · rintro rfl
      exact commandsOfBytes_flatMap ws
  refine ⟨hread, fun bs => ?_, fun bs ws k j w h hw hj => ?_⟩
  · rcases byteStream_cases bs with ⟨ws, rfl⟩ | ⟨herr, hlen⟩
    · -- such a stream is read, and its length is 9 times the number of commands
      simp
    · exact iff_of_true herr hlen
  · rw [(hread bs ws).1 h]
    exact getElem?_flatMap_commandBytes hw hj

/-- Settles O8: the first byte is `OP` and `R`, the others are bytes of `A` and `B`; the response word is `ok` above
`result`. -/
theorem storedFormsAreMostSignificantByteFirst : Obligations.StoredFormsAreMostSignificantByteFirst := by
  refine ⟨fun w => ?_, fun r => ⟨?_, BitVec.extractLsb'_append_eq_right, rfl⟩⟩
  · simp (disch := decide) only [opField_append_rField, extractLsb'_aField, extractLsb'_bField]
    rfl
  · rw [Response.word, BitVec.getLsbD_append]
    simp

end

section
/-! PROOF. Reading a register back (20_memory.md R37): a command that does not write a register leaves its value, and
`RD` answers it. -/

namespace Sys2Proof.Machine

variable {s : State} {w : Command} {r : Reg}

/-- The index of a register is legal (R42). -/
@[simp] theorem wellFormed_index (r : Reg) : RegIndex.wellFormed r.index = true := by cases r <;> rfl

/-- `RD` of a register decodes (R44). -/
theorem decode_encode_rd (r : Reg) : decode (encode (.rd r.index)) = .ok (.rd r.index) := by
  simp [encode, decode_pack, Op.code]

/-- `WR` of a register decodes, whatever the value (R44). -/
theorem decode_encode_wr (r : Reg) (v : Word) : decode (encode (.wr r.index v)) = .ok (.wr r.index v) := by
  simp [encode, decode_pack, Op.code]

/-- A word whose instruction changes a register is one that writes it (R10). -/
theorem writesReg_of_read_regsAfter_ne {i : Instr} {x : Regs} (hw : decode w = .ok i)
    (h : (regsAfter i x).read r ≠ x.read r) : writesReg w r = true := by
  rcases writer_of_read_regsAfter_ne h with rfl | ⟨v, rfl⟩ | ⟨hr, sp, pv, rfl⟩
  · simp [writesReg, hw]
  · simp [writesReg, hw]
  · simpa [writesReg, hw] using hr

/-- A step with a word at the port that does not write the register takes the word and keeps the register (R37 (a)). -/
theorem step_keeps_unwritten {rest : List HostEvent} (hp : s.pending = .command w :: rest)
    (hw : writesReg w r = false) :
    ∃ t, step s = .next t ∧ t.pending = rest ∧ t.regs.read r = s.regs.read r := by
  cases hd : decode w with
  | error e =>
    rw [step_of_command hp, hd]
    exact ⟨_, rfl, rfl, rfl⟩
  | ok i =>
    obtain ⟨t, hstep, hrest, hregs⟩ := step_of_decode hp hd
    refine ⟨t, hstep, hrest, ?_⟩
    rw [hregs]
    by_contra hne
    exact Bool.false_ne_true (hw.symm.trans (writesReg_of_read_regsAfter_ne hd hne))

/-- A run through words that do not write the register takes them all and keeps the register. -/
theorem run_keeps_unwritten {p : List Command} {rest : List HostEvent} (hp : s.pending = p.map .command ++ rest)
    (hw : ∀ w ∈ p, writesReg w r = false) (k : Nat) :
    ∃ t, Host.Core.run Sys2Proof.core (p.length + k) s = Host.Core.run Sys2Proof.core k t ∧
      t.pending = rest ∧ t.regs.read r = s.regs.read r := by
  induction p generalizing s with
  | nil => exact ⟨s, by rw [List.length_nil, Nat.zero_add], hp, rfl⟩
  | cons w p ih =>
    obtain ⟨hhead, htail⟩ := List.forall_mem_cons.1 hw
    obtain ⟨u, hstep, hu, hkept⟩ := step_keeps_unwritten hp hhead
    obtain ⟨t, hrun, ht, hread⟩ := ih hu htail
    refine ⟨t, ?_, ht, hread.trans hkept⟩
    rw [List.length_cons, Nat.add_right_comm, run_succ _ hstep, hrun]

/-- A step with an `RD` of the register at the port answers the value it holds (R83). -/
theorem step_rd {rest : List HostEvent} (hp : s.pending = .command (encode (.rd r.index)) :: rest) :
    ∃ t, step s = .next t ∧ t.responses = s.responses ++ [⟨true, s.regs.read r⟩] := by
  rw [step_of_command hp, decode_encode_rd]
  exact ⟨_, exec_eq _ _, by simp [responseTo, State.took]⟩

/-- Words that do not write the register and then an `RD` of it: the last response is the value at the start. -/
theorem run_rd_after_unwritten {p : List Command}
    (hp : s.pending = p.map .command ++ [.command (encode (.rd r.index))]) (hw : ∀ w ∈ p, writesReg w r = false) :
    ∃ t : State, Host.Core.run Sys2Proof.core (p.length + 1) s = .next t ∧
      t.responses.getLast? = some ⟨true, s.regs.read r⟩ := by
  obtain ⟨u, hrun, hu, hread⟩ := run_keeps_unwritten hp hw 1
  obtain ⟨t, hstep, hresp⟩ := step_rd hu
  refine ⟨t, hrun.trans (run_succ 0 hstep), ?_⟩
  rw [hresp, List.getLast?_concat, hread]

end Sys2Proof.Machine

open Sys2Proof Sys2Proof.Machine

/-- Settles O48: the words in between keep the register, and the `WR` before them has set it. -/
theorem rdReturnsTheLatestWrite : Obligations.RdReturnsTheLatestWrite := by
  intro r v p s hw hs
  constructor
  · exact run_rd_after_unwritten (by simp [hs]) hw
  · have hp : (s.present (encode (.wr r.index v) :: p ++ [encode (.rd r.index)])).pending =
        .command (encode (.wr r.index v)) :: (p.map .command ++ [.command (encode (.rd r.index))]) := by simp [hs]
    obtain ⟨u, hstep, hu, hregs⟩ := step_of_decode hp (decode_encode_wr r v)
    have hread : u.regs.read r = v := by rw [hregs, regsAfter_wr_some v _ (ofIndex_index r), read_write_same]
    obtain ⟨t, hrun, hresp⟩ := run_rd_after_unwritten hu hw
    exact ⟨t, (run_succ _ hstep).trans hrun, hread ▸ hresp⟩

end

section
/-! PROOF. Command words (30_encoding.md R40 to R52): the opcode picks the one row that can cover a word, encoding and
decoding undo one another, and every word at the port gets one response. -/

namespace Sys2Proof

/-! ### The opcode picks the row (R44, R51) -/

/-- Masking a word masks its opcode. -/
theorem opField_and (w m : Command) : opField (w &&& m) = opField w &&& opField m := BitVec.extractLsb'_and

/-- Every row of the table compares the whole opcode with its own (R44). -/
theorem opField_mask_pattern :
    ∀ row ∈ opcodeTable, opField row.mask = 0xF#4 ∧ opField row.pattern = row.op.code := by decide

/-- A row covers a word when the word, masked, is the row's match (R44). -/
theorem covers_iff {row : Row} {w : Command} : row.covers w = true ↔ w &&& row.mask = row.pattern := beq_iff_eq

/-- A row covers only words with its opcode. -/
theorem opField_of_covers {row : Row} {w : Command} (hrow : row ∈ opcodeTable) (h : row.covers w = true) :
    opField w = row.op.code := by
  obtain ⟨hmask, hpattern⟩ := opField_mask_pattern row hrow
  have hop := opField_and w row.mask
  rw [covers_iff.1 h, hmask, hpattern] at hop
  exact (hop.trans BitVec.and_allOnes).symm

/-- No two rows of the table have the same opcode (R43). -/
theorem row_eq_of_code_eq :
    ∀ p ∈ opcodeTable, ∀ q ∈ opcodeTable, p.op.code = q.op.code → p = q := by decide

/-- With a row's opcode, the row's mask and match decide: its free fields, or an illegal word (R51). -/
theorem decode_of_code {w : Command} {row : Row} (hop : opField w = row.op.code) (hrow : row ∈ opcodeTable) :
    decode w = if w &&& row.mask = row.pattern then .ok (row.op.instr w) else .error .illegalCommand := by
  have honly : ∀ q ∈ opcodeTable, q.covers w = true → q = row := fun q hq hc =>
    row_eq_of_code_eq q hq row hrow ((opField_of_covers hq hc).symm.trans hop)
  unfold decode
  cases hfind : opcodeTable.find? (fun q => q.covers w) with
  | some q =>
    have hcovers : q.covers w = true := List.find?_some (p := fun q : Row => q.covers w) hfind
    obtain rfl := honly q (List.mem_of_find?_eq_some hfind) hcovers
    exact (if_pos (covers_iff.1 hcovers)).symm
  | none =>
    exact (if_neg (mt covers_iff.2 (List.find?_eq_none.1 hfind row hrow))).symm

/-- The same, with the instruction written from other fields that agree on the legal words. -/
theorem decode_of_code_eq {w : Command} {row : Row} {i : Instr} (hop : opField w = row.op.code)
    (hrow : row ∈ opcodeTable) (hi : (row.op.instr w).wellFormed = true → row.op.instr w = i) :
    decode w = if w &&& row.mask = row.pattern then .ok i else .error .illegalCommand := by
  have hd := decode_of_code hop hrow
  split_ifs at hd ⊢ with hm
  · rw [hd, hi (wellFormed_of_decode hd)]
  · exact hd

/-- The illegal words are those that no row covers (R48). -/
theorem decode_eq_error_iff (w : Command) :
    decode w = .error .illegalCommand ↔ ∀ row ∈ opcodeTable, row.covers w = false := by
  unfold decode
  cases hfind : opcodeTable.find? (fun q => q.covers w) with
  | some q =>
    have hcovers : q.covers w = true := List.find?_some (p := fun q : Row => q.covers w) hfind
    simpa using ⟨q, List.mem_of_find?_eq_some hfind, hcovers⟩
  | none => simpa using hfind

/-- A word whose opcode is no row's is illegal (R48 (a)). -/
theorem decode_of_reserved {w : Command} (h : ∀ row ∈ opcodeTable, opField w ≠ row.op.code) :
    decode w = .error .illegalCommand :=
  (decode_eq_error_iff w).2 fun row hrow => Bool.eq_false_iff.2 fun hc => h row hrow (opField_of_covers hrow hc)

/-- Every opcode is a row's or reserved (R43, R48 (a)). -/
theorem opcode_assigned_or_reserved : ∀ op : BitVec 4,
    op ∈ [0x1#4, 0x2#4, 0x3#4, 0x4#4, 0x8#4, 0x9#4, 0xA#4, 0xB#4] ∨
      op ∈ [0x0#4, 0x5#4, 0x6#4, 0x7#4, 0xC#4, 0xD#4, 0xE#4, 0xF#4] := by decide

/-- The reserved indices are those that are not well formed (R48 (b)). -/
theorem eight_le_index_iff : ∀ r : RegIndex, 8 ≤ r.toNat ↔ ¬ RegIndex.wellFormed r = true := by decide

/-- The illegal words by their fields (R48): a reserved opcode, or a field that its opcode wants zero is not. -/
theorem decode_eq_error_iff_fields (w : Command) : decode w = .error .illegalCommand ↔
    opField w ∈ [0x0#4, 0x5#4, 0x6#4, 0x7#4, 0xC#4, 0xD#4, 0xE#4, 0xF#4] ∨
    (opField w ∈ [0x2#4, 0x3#4] ∧ 8 ≤ (rField w).toNat) ∨
    (opField w ∈ [0x1#4, 0x4#4, 0x8#4, 0x9#4, 0xA#4, 0xB#4] ∧ rField w ≠ 0#4) ∨
    (opField w ∈ [0x1#4, 0x3#4] ∧ aField w ≠ 0#32) ∨
    (opField w ∈ [0x1#4, 0x2#4, 0x3#4, 0x8#4, 0x9#4] ∧ bField w ≠ 0#32) := by
  rw [decode_by_fields]
  rcases opcode_assigned_or_reserved (opField w) with hop | hop <;>
    simp only [List.mem_cons, List.not_mem_nil, or_false] at hop
  · -- the negated conditions of the opcode's row are the clauses that name it
    rcases hop with h | h | h | h | h | h | h | h <;> simp [h, eight_le_index_iff, imp_iff_not_or]
  · rcases hop with h | h | h | h | h | h | h | h <;> simp [h]

/-! ### Encoding and decoding undo one another (R41) -/

/-- Decoding the word of an instruction gives it back, or refuses an index of 8 to 15 (R48 (b)). -/
theorem decode_encode (i : Instr) :
    decode (encode i) = if i.wellFormed = true then .ok i else .error .illegalCommand := by
  cases i with
  | wr r _ | rd r => cases hr : RegIndex.wellFormed r <;> simp [encode, decode_pack, Op.code, Instr.wellFormed, hr]
  | init | calculate _ _ | fromint _ | frac _ | mul _ _ | div _ _ =>
    simp [encode, decode_pack, Op.code, Instr.wellFormed]

/-- A legal word is the word of its instruction. -/
theorem encode_of_decode {w : Command} {i : Instr} (h : decode w = .ok i) : encode i = w := by
  rw [decode_by_fields] at h
  conv_rhs => rw [← pack_fields w]
  split_ifs at h <;> cases h <;> simp [encode, Op.code, *]

/-- The free bits `R[2:0]` of a legal index are the index. -/
theorem zero_append_extractLsb' :
    ∀ r : RegIndex, RegIndex.wellFormed r = true → 0#1 ++ r.extractLsb' 0 3 = r := by decide

/-- A legal index, read as the three free bits of the word (R42). -/
theorem rField_eq_of_wellFormed {w : Command} (h : RegIndex.wellFormed (rField w) = true) :
    rField w = 0#1 ++ w.extractLsb' 64 3 := by
  have hbits : (rField w).extractLsb' 0 3 = w.extractLsb' 64 3 :=
    extractLsb'_extractLsb'_add w 64 (by decide)
  rw [← hbits, zero_append_extractLsb' _ h]

end Sys2Proof

namespace Sys2Proof.Machine

/-! ### The answer to a word (R50, R101) -/

/-- The `ok` of an instruction's response: only an index of 8 to 15 is refused (R50, R82, R83). -/
theorem responseTo_ok (i : Instr) (s : State) : (responseTo i s).ok = i.wellFormed := by
  cases i with
  | wr r v => rfl
  | rd r =>
    have hr := ofIndex_isSome r
    cases hi : Reg.ofIndex r <;> simp_all [responseTo, Instr.wellFormed]
  | init | calculate _ _ | fromint _ | frac _ | mul _ _ | div _ _ => rfl

/-- `INIT` and `WR` answer with a zero result (R81, R82). -/
theorem responseTo_result_eq_zero {i : Instr} (s : State) (h : i.op = .init ∨ i.op = .wr) :
    (responseTo i s).result = 0#32 := by
  cases i with
  | init | wr _ _ => rfl
  | rd _ | calculate _ _ | fromint _ | frac _ | mul _ _ | div _ _ => simp [Instr.op] at h

/-- The opcode of a legal word is its instruction's (R43). -/
theorem opField_of_decode {w : Command} {i : Instr} (h : decode w = .ok i) : opField w = i.op.code := by
  rw [← encode_of_decode h]
  cases i <;> simp [encode, Instr.op]

/-- `INIT` and `WR` are the operations of the opcodes 1 and 2 (R43). -/
theorem op_of_code : ∀ op : Op, op.code = 0x1#4 ∨ op.code = 0x2#4 → op = .init ∨ op = .wr := by
  rintro ⟨⟩ <;> decide

/-- A step with a word at the port takes it and gives one response, with `ok` for a legal word and a zero result for an
illegal word, `INIT` and `WR` (R36, R50). -/
theorem step_answers {s : State} {w : Command} {rest : List HostEvent} (hp : s.pending = .command w :: rest) :
    ∃ t r, step s = .next t ∧ t.pending = rest ∧ t.done = s.done ++ [.command w] ∧
      t.responses = s.responses ++ [r] ∧ r.ok = isLegal w ∧
      ((isLegal w = false ∨ opField w = 0x1#4 ∨ opField w = 0x2#4) → r.result = 0#32) := by
  rw [step_of_command hp]
  cases hd : decode w with
  | error e =>
    have hlegal : isLegal w = false := by simp [isLegal, hd]
    exact ⟨_, ⟨false, 0#32⟩, rfl, rfl, rfl, rfl, hlegal.symm, fun _ => rfl⟩
  | ok i =>
    have hlegal : isLegal w = true := (isLegal_eq_true_iff w).2 ⟨i, hd⟩
    refine ⟨_, responseTo i (s.took (.command w) rest), exec_eq i _, rfl, rfl, rfl, ?_, fun h => ?_⟩
    · rw [responseTo_ok, wellFormed_of_decode hd, hlegal]
    · have hcode : opField w = 0x1#4 ∨ opField w = 0x2#4 := h.resolve_left (by simp [hlegal])
      rw [opField_of_decode hd] at hcode
      exact responseTo_result_eq_zero _ (op_of_code i.op hcode)

/-- A run of as many steps as there are commands at the port takes them all and gives as many responses (R52). -/
theorem run_takes_commands {p : List Command} {s : State} (hp : s.pending = p.map .command) :
    ∃ t : State, Host.Core.run Sys2Proof.core p.length s = .next t ∧ t.pending = [] ∧
      t.done = s.done ++ p.map .command ∧ t.responses.length = s.responses.length + p.length := by
  induction p generalizing s with
  | nil => exact ⟨s, rfl, hp, by simp, rfl⟩
  | cons w p ih =>
    obtain ⟨u, r, hstep, hrest, hudone, huresp, -, -⟩ := step_answers hp
    obtain ⟨t, hrun, hnone, hdone, hresp⟩ := ih hrest
    refine ⟨t, (run_succ p.length hstep).trans hrun, hnone, by simp [hdone, hudone], ?_⟩
    rw [hresp, huresp, List.length_append, List.length_singleton, List.length_cons]
    omega

end Sys2Proof.Machine

open Sys2Proof Sys2Proof.Machine

/-- Settles O1: a row of the table covers the word exactly when the index is legal. -/
theorem decodeOfEncodeGivesTheInstruction : Obligations.DecodeOfEncodeGivesTheInstruction := decode_encode

/-- Settles O2: the row that covers a word fixes every field that is not an operand. -/
theorem encodeOfDecodeGivesTheWord : Obligations.EncodeOfDecodeGivesTheWord :=
  fun _ _ h => ⟨wellFormed_of_decode h, encode_of_decode h⟩

/-- Settles O3, opcode by opcode: the row of the opcode is the only one that can cover the word. -/
theorem decoderReadsOpcodeThenMask : Obligations.DecoderReadsOpcodeThenMask := by
  intro w
  by_cases h1 : opField w = 0x1#4
  · rw [if_pos h1]
    exact decode_of_code (row := ⟨.init, _, _⟩) h1 (by decide)
  rw [if_neg h1]
  by_cases h2 : opField w = 0x2#4
  · rw [if_pos h2]
    exact decode_of_code_eq (row := ⟨.wr, _, _⟩) h2 (by decide)
      fun hwf => congrArg (Instr.wr · (aField w)) (rField_eq_of_wellFormed hwf)
  rw [if_neg h2]
  by_cases h3 : opField w = 0x3#4
  · rw [if_pos h3]
    exact decode_of_code_eq (row := ⟨.rd, _, _⟩) h3 (by decide)
      fun hwf => congrArg Instr.rd (rField_eq_of_wellFormed hwf)
  rw [if_neg h3]
  by_cases h4 : opField w = 0x4#4
  · rw [if_pos h4]
    exact decode_of_code (row := ⟨.calculate, _, _⟩) h4 (by decide)
  rw [if_neg h4]
  by_cases h8 : opField w = 0x8#4
  · rw [if_pos h8]
    exact decode_of_code (row := ⟨.fromint, _, _⟩) h8 (by decide)
  rw [if_neg h8]
  by_cases h9 : opField w = 0x9#4
  · rw [if_pos h9]
    exact decode_of_code (row := ⟨.frac, _, _⟩) h9 (by decide)
  rw [if_neg h9]
  by_cases hA : opField w = 0xA#4
  · rw [if_pos hA]
    exact decode_of_code (row := ⟨.mul, _, _⟩) hA (by decide)
  rw [if_neg hA]
  by_cases hB : opField w = 0xB#4
  · rw [if_pos hB]
    exact decode_of_code (row := ⟨.div, _, _⟩) hB (by decide)
  rw [if_neg hB]
  exact decode_of_reserved (by simp [opcodeTable, Op.code, *])

/-- Settles O4: by the table, by the fields, and by what a step with an illegal word at the port does. -/
theorem wordsOutsideTheTableAreIllegalCommands : Obligations.WordsOutsideTheTableAreIllegalCommands := by
  intro w
  refine ⟨decode_eq_error_iff w, decode_eq_error_iff_fields w, fun hd s rest hp => ?_⟩
  rw [step_of_command hp, hd]

/-- Settles O5: each row covers words of its own opcode only. -/
theorem atMostOneRowCoversAWord : Obligations.AtMostOneRowCoversAWord := by
  intro w p q hp hq hcp hcq
  exact row_eq_of_code_eq p hp q hq ((opField_of_covers hp hcp).symm.trans (opField_of_covers hq hcq))

/-- Settles O6, by running the decoder on each word. -/
theorem exampleWordsDecodeAsTheSpecSays : Obligations.ExampleWordsDecodeAsTheSpecSays :=
  ⟨rfl, rfl, rfl, rfl, rfl, rfl, rfl, rfl, rfl, rfl, rfl, rfl, rfl⟩

/-- Settles O37, by what a step with a command at the port does. -/
theorem stepRunsTheDecodedInstruction : Obligations.StepRunsTheDecodedInstruction := by
  intro s w rest i hp hd
  rw [step_of_command hp, hd]

/-- Settles O39, by the answer of one step. -/
theorem everyCommandGetsExactlyOneResponse : Obligations.EveryCommandGetsExactlyOneResponse := by
  intro s w rest hp
  obtain ⟨t, r, hstep, -, -, hresp, hok, hzero⟩ := step_answers hp
  exact ⟨t, r, hstep, hresp, hok, hzero⟩

/-- Settles O46, by induction on the program: each step takes one command and answers it. -/
theorem aProgramOfNCommandsGivesNResponses : Obligations.AProgramOfNCommandsGivesNResponses := by
  intro p s hs
  obtain ⟨t, hrun, hnone, hdone, hresp⟩ := run_takes_commands (p := p) (s := s.present p) (by simp [hs])
  have hidle : step t = .next t := by simp [step, State.fetch, hnone]
  exact ⟨t, hrun, hnone, by simp [State.pc, hdone], hresp, by simp [State.program, hnone, hdone, hs], hidle⟩

end

section
/-! PROOF. The literals of R54 and `FromFloat` in closed form (40_fixed_point_primitives.md R68, R69). -/

namespace Sys2Proof.Machine

/-! ### `FromFloat` (R68, R69) -/

/-- The raw value R68 gives a real number: the nearest, a tie away from zero. -/
def roundRaw (f : Rat) : Int := if 0 ≤ f then (f * 65536 + 1 / 2).floor else -(-f * 65536 + 1 / 2).floor

/-- The rounding as the model computes it, by truncation. -/
theorem roundRaw_eq_trunc (f : Rat) :
    roundRaw f = if 0 ≤ f then trunc (f * 65536 + 1 / 2) else trunc (f * 65536 - 1 / 2) := by
  unfold roundRaw trunc
  by_cases hf : 0 ≤ f
  · rw [if_pos hf, if_pos hf, if_pos (by positivity)]
  · have hneg : ¬ 0 ≤ f * 65536 - 1 / 2 := by linarith
    rw [if_neg hf, if_neg hf, if_neg hneg, Rat.ceil_eq_neg_floor_neg]
    congr 2
    ring

/-- The rounded value fits a word exactly in the open interval of R69. -/
theorem roundRaw_fits_iff (f : Rat) : (-(2 ^ 31) ≤ roundRaw f ∧ roundRaw f ≤ 2 ^ 31 - 1) ↔
    -(2 ^ 31) - 1 / 2 < f * 65536 ∧ f * 65536 < 2 ^ 31 - 1 / 2 := by
  unfold roundRaw
  by_cases hf : 0 ≤ f
  · have hlow : 0 ≤ (f * 65536 + 1 / 2).floor := Rat.le_floor_iff.2 (by push_cast; positivity)
    have hhigh : (f * 65536 + 1 / 2).floor < 2 ^ 31 ↔ f * 65536 + 1 / 2 < 2 ^ 31 := by
      rw [Rat.floor_lt_iff]; norm_num
    rw [if_pos hf]
    exact ⟨fun ⟨_, h⟩ => ⟨by linarith, by linarith [hhigh.1 (by omega)]⟩,
      fun ⟨_, h⟩ => ⟨by omega, by linarith [hhigh.2 (by linarith)]⟩⟩
  · have hlow : 0 ≤ (-f * 65536 + 1 / 2).floor := Rat.le_floor_iff.2 (by push_cast; linarith)
    have hhigh : (-f * 65536 + 1 / 2).floor < 2 ^ 31 + 1 ↔ -f * 65536 + 1 / 2 < 2 ^ 31 + 1 := by
      rw [Rat.floor_lt_iff]; norm_num
    rw [if_neg hf]
    exact ⟨fun ⟨h, _⟩ => ⟨by linarith [hhigh.1 (by omega)], by linarith⟩,
      fun ⟨h, _⟩ => ⟨by linarith [hhigh.2 (by linarith)], by omega⟩⟩

/-- `FromFloat` in closed form (R68), with a value exactly where R69 gives one. -/
theorem fromFloat_eq (f : Rat) : fromFloat f =
    if -(2 ^ 31) - 1 / 2 < f * 65536 ∧ f * 65536 < 2 ^ 31 - 1 / 2 then some (wrap32 (roundRaw f)) else none := by
  have hdef : fromFloat f =
      if -(2 ^ 31) ≤ roundRaw f ∧ roundRaw f ≤ 2 ^ 31 - 1 then some (wrap32 (roundRaw f)) else none := by
    rw [roundRaw_eq_trunc]; rfl
  rw [hdef, if_congr (roundRaw_fits_iff f) rfl rfl]

/-! ### The integer forms (R54) -/

/-- A narrowed integer differs from it by a multiple of 2^32 (R65). -/
theorem exists_eq_toInt_wrap32_add (n : Int) : ∃ k : Int, n = (wrap32 n).toInt + k * 2 ^ 32 := by
  refine ⟨n.bdiv (2 ^ 32), ?_⟩
  rw [toInt_wrap32, mul_comm]
  exact (Int.bmod_add_bdiv n (2 ^ 32)).symm

/-- `FromInt` of a 16-bit integer is that number in Q16.16 (R67). -/
theorem toFloat_fromInt_wrap32 {n : Int} (hlow : -32768 ≤ n) (hhigh : n ≤ 32767) :
    toFloat (fromInt (wrap32 n)) = n := by
  have hn : (wrap32 n).toInt = n := toInt_wrap32_of_fits (by omega) (by omega)
  have hraw : (fromInt (wrap32 n)).toInt = n * 65536 := by
    simp only [fromInt, hn, Config.one]
    exact toInt_wrap32_of_fits (by omega) (by omega)
  rw [toFloat, val, hraw]
  push_cast
  ring

end Sys2Proof.Machine

open Sys2Proof Sys2Proof.Machine

/-- Settles O57, form by form: the hexadecimal one is as the model writes it, the others by what narrowing, `FromInt`
and `FromFloat` give. -/
theorem literalsGiveTheWordsOfTheTable : Obligations.LiteralsGiveTheWordsOfTheTable := by
  refine ⟨fun n => rfl, fun n => ?_, fun n => ?_, fromFloat_eq⟩
  · split_ifs with h
    · exact ⟨wrap32 n, if_pos h, exists_eq_toInt_wrap32_add n⟩
    · exact if_neg h
  · split_ifs with h
    · exact ⟨fromInt (wrap32 n), if_pos h, toFloat_fromInt_wrap32 h.1 h.2⟩
    · exact if_neg h

end

section
/-! PROOF. The assembler and the disassembler (30_encoding.md R53): a line assembles to the word of a well-formed
instruction, and the text of a word is read back token by token. -/

namespace Sys2Proof.Machine

/-! ### What a line assembles to (R53) -/

/-- A sequence of two readings succeeds when both do. -/
theorem bind_eq_ok {α β : Type} {x : Except AsmError α} {f : α → Except AsmError β} {b : β} :
    (x >>= f) = .ok b ↔ ∃ a, x = .ok a ∧ f a = .ok b := by
  cases x with
  | error e => simp [bind, Except.bind]
  | ok a => simp [bind, Except.bind]

/-- The assembler takes register indices from register names only, so what it makes is well formed (R10, R53). -/
theorem wellFormed_of_assembleOperands {op : Op} {args : List (List Char)} {i : Instr}
    (h : assembleOperands op args = .ok i) : i.wellFormed = true := by
  unfold assembleOperands at h
  cases i with
  | init | calculate _ _ | fromint _ | frac _ | mul _ _ | div _ _ => rfl
  | wr k v =>
    split at h <;> simp only [bind_eq_ok, Except.ok.injEq, reduceCtorEq, Instr.wr.injEq, and_false, exists_false] at h
    obtain ⟨r, -, _, -, rfl, -⟩ := h
    exact wellFormed_index r
  | rd k =>
    split at h <;> simp only [bind_eq_ok, Except.ok.injEq, reduceCtorEq, Instr.rd.injEq, and_false, exists_false] at h
    obtain ⟨r, -, rfl⟩ := h
    exact wellFormed_index r

/-- A line that is no `.word72` line assembles to the word of a well-formed instruction. -/
theorem exists_encode_of_assembleLine {line : List Char} {w : Command} (h : assembleLine line = .ok (some w))
    (hraw : mnemonicOf (plainLine line) ≠ word72Text) : ∃ i : Instr, i.wellFormed = true ∧ w = encode i := by
  simp only [assembleLine, if_neg hraw] at h
  split at h
  · cases h
  split at h
  · cases h
  split at h
  next i hi =>
    cases h
    exact ⟨i, wellFormed_of_assembleOperands hi, rfl⟩
  · cases h

/-! ### Tokens and the line they make -/

/-- A character that ends a token: a blank, a comma, or the start of a comment. -/
def isSeparator (c : Char) : Bool := isBlank c || c == ',' || c == ';'

/-- A mnemonic or an operand: some characters, none of which ends a token. -/
structure IsToken (t : List Char) : Prop where
  ne_nil : t ≠ []
  not_separator : ∀ c ∈ t, isSeparator c = false

/-- The operands of a line, each after a blank, with commas between them. -/
def argsText : List (List Char) → List Char
  | [] => []
  | [a] => ' ' :: a
  | a :: b :: args => ' ' :: a ++ ',' :: argsText (b :: args)

/-- A text in lower case. -/
def lower (t : List Char) : List Char := t.map Char.toLower

/-- The separators have codes up to that of the semicolon, 59. -/
theorem isSeparator_of_lt {c : Char} (h : 59 < c.toNat) : isSeparator c = false := by
  rw [Bool.eq_false_iff]
  intro hsep
  simp only [isSeparator, isBlank, Bool.or_eq_true, beq_iff_eq] at hsep
  rcases hsep with ((((rfl | rfl) | rfl) | rfl) | rfl) <;> exact absurd h (by decide)

/-- Lower case makes no separator: it changes letters into letters. -/
theorem isSeparator_toLower {c : Char} (h : isSeparator c = false) : isSeparator c.toLower = false := by
  unfold Char.toLower
  split
  next hupper =>
    apply isSeparator_of_lt
    have hlow : 65 ≤ c.val.toNat := hupper.1
    have hhigh : c.val.toNat ≤ 90 := hupper.2
    have hval : (c.val + ('a'.val - 'A'.val)).toNat = c.val.toNat + 32 := by
      rw [UInt32.toNat_add]
      exact Nat.mod_eq_of_lt (by change c.val.toNat + 32 < 2 ^ 32; omega)
    change 59 < (c.val + ('a'.val - 'A'.val)).toNat
    omega
  · exact h

/-- A token in lower case is one. -/
theorem IsToken.lower {t : List Char} (h : IsToken t) : IsToken (lower t) := by
  refine ⟨by simpa [Machine.lower] using h.ne_nil, fun c hc => ?_⟩
  obtain ⟨d, hd, rfl⟩ := List.mem_map.1 hc
  exact isSeparator_toLower (h.not_separator d hd)

theorem isSeparator_eq_false_iff (c : Char) :
    isSeparator c = false ↔ isBlank c = false ∧ c ≠ ',' ∧ c ≠ ';' := by simp [isSeparator, and_assoc]

theorem IsToken.not_blank {t : List Char} (h : IsToken t) {c : Char} (hc : c ∈ t) : isBlank c = false :=
  ((isSeparator_eq_false_iff c).1 (h.not_separator c hc)).1

theorem IsToken.ne_comma {t : List Char} (h : IsToken t) {c : Char} (hc : c ∈ t) : c ≠ ',' :=
  ((isSeparator_eq_false_iff c).1 (h.not_separator c hc)).2.1

theorem IsToken.ne_semicolon {t : List Char} (h : IsToken t) {c : Char} (hc : c ∈ t) : c ≠ ';' :=
  ((isSeparator_eq_false_iff c).1 (h.not_separator c hc)).2.2

/-- Lower case goes into the operands. -/
theorem lower_argsText (args : List (List Char)) : lower (argsText args) = argsText (args.map lower) := by
  induction args using argsText.induct with
  | case1 => rfl
  | case2 a => rfl
  | case3 a b args ih =>
    have hsplit : argsText (a :: b :: args) = ' ' :: a ++ ',' :: argsText (b :: args) := rfl
    rw [hsplit, lower, List.map_append, List.map_cons, List.map_cons, ← lower, ← lower, ih]
    rfl

/-! ### Reading a line of tokens -/

/-- A text with no blank at either end is its own trimming. -/
theorem trim_eq_self {l : List Char} (hhead : ∀ c ∈ l.head?, isBlank c = false)
    (hlast : ∀ c ∈ l.getLast?, isBlank c = false) : trim l = l := by
  have hdrop : ∀ l : List Char, (∀ c ∈ l.head?, isBlank c = false) → l.dropWhile isBlank = l := by
    intro l h
    cases l with
    | nil => rfl
    | cons c l => rw [List.dropWhile_cons_of_neg (by simp [h c rfl])]
  rw [trim, hdrop l hhead, hdrop l.reverse (by rwa [List.head?_reverse]), List.reverse_reverse]

/-- A blank in front is trimmed. -/
theorem trim_blank_cons (l : List Char) : trim (' ' :: l) = trim l := rfl

/-- A text that begins with a token begins with no blank. -/
theorem IsToken.head_not_blank {t : List Char} (h : IsToken t) (l : List Char) :
    ∀ c ∈ (t ++ l).head?, isBlank c = false := by
  rw [List.head?_append_of_ne_nil t h.ne_nil]
  exact fun c hc => h.not_blank (List.mem_of_mem_head? hc)

/-- A text that ends with a token ends with no blank. -/
theorem IsToken.last_not_blank {t : List Char} (h : IsToken t) (l : List Char) :
    ∀ c ∈ (l ++ t).getLast?, isBlank c = false := by
  rw [List.getLast?_append_of_ne_nil l h.ne_nil]
  exact fun c hc => h.not_blank (List.mem_of_mem_getLast? hc)

theorem IsToken.trim_eq {t : List Char} (h : IsToken t) : trim t = t :=
  trim_eq_self (by simpa using h.head_not_blank []) (h.last_not_blank [])

/-- A text with a character that is no blank is not trimmed away. -/
theorem trim_ne_nil {l : List Char} {c : Char} (hc : c ∈ l) (hblank : isBlank c = false) : trim l ≠ [] := by
  intro h
  rw [trim, List.reverse_eq_nil_iff, List.dropWhile_eq_nil_iff] at h
  have hall : ∀ d ∈ l.dropWhile isBlank, isBlank d = true := fun d hd => h d (List.mem_reverse.2 hd)
  rw [← List.takeWhile_append_dropWhile (p := isBlank) (l := l), List.mem_append] at hc
  rcases hc with hc | hc
  · exact Bool.false_ne_true (hblank.symm.trans (List.mem_takeWhile_imp hc))
  · exact Bool.false_ne_true (hblank.symm.trans (hall c hc))

/-- Operands begin with a blank and the first of them. -/
theorem exists_argsText_cons (a : List Char) (args : List (List Char)) :
    ∃ l, argsText (a :: args) = ' ' :: (a ++ l) := by
  cases args with
  | nil => exact ⟨[], by simp [argsText]⟩
  | cons b args => exact ⟨',' :: argsText (b :: args), rfl⟩

/-- Operands end in a token. -/
theorem exists_argsText_eq_append {args : List (List Char)} (hne : args ≠ []) (hargs : ∀ a ∈ args, IsToken a) :
    ∃ l t, argsText args = l ++ t ∧ IsToken t := by
  induction args using argsText.induct with
  | case1 => exact absurd rfl hne
  | case2 a => exact ⟨[' '], a, rfl, hargs a (by simp)⟩
  | case3 a b args ih =>
    obtain ⟨l, t, hl, ht⟩ := ih (by simp) (List.forall_mem_cons.1 hargs).2
    exact ⟨' ' :: a ++ ',' :: l, t, by simp [argsText, hl], ht⟩

/-- A line of tokens has no blank at either end. -/
theorem trim_line {m : List Char} {args : List (List Char)} (hm : IsToken m) (hargs : ∀ a ∈ args, IsToken a) :
    trim (m ++ argsText args) = m ++ argsText args := by
  refine trim_eq_self (hm.head_not_blank _) ?_
  by_cases hne : args = []
  · simpa [hne, argsText] using hm.last_not_blank []
  · obtain ⟨l, t, hl, ht⟩ := exists_argsText_eq_append hne hargs
    rw [hl, ← List.append_assoc]
    exact ht.last_not_blank _

/-- Up to its first comma a text is its first piece. -/
theorem splitCommas_append_comma {t : List Char} (h : ∀ c ∈ t, c ≠ ',') (l : List Char) :
    splitCommas (t ++ ',' :: l) = t :: splitCommas l := by
  induction t with
  | nil => rfl
  | cons c t ih =>
    obtain ⟨hc, ht⟩ := List.forall_mem_cons.1 h
    simp [splitCommas, hc, ih ht]

/-- A text without a comma is one piece. -/
theorem splitCommas_eq_self {t : List Char} (h : ∀ c ∈ t, c ≠ ',') : splitCommas t = [t] := by
  induction t with
  | nil => rfl
  | cons c t ih =>
    obtain ⟨hc, ht⟩ := List.forall_mem_cons.1 h
    simp [splitCommas, hc, ih ht]

/-- The pieces of a line's operands, each still with its blank. -/
theorem splitCommas_argsText {args : List (List Char)} (hne : args ≠ []) (hargs : ∀ a ∈ args, IsToken a) :
    splitCommas (argsText args) = args.map (' ' :: ·) := by
  have hpiece : ∀ a ∈ args, ∀ c ∈ ' ' :: a, c ≠ ',' := fun a ha =>
    List.forall_mem_cons.2 ⟨by decide, fun _ hc => (hargs a ha).ne_comma hc⟩
  induction args using argsText.induct with
  | case1 => exact absurd rfl hne
  | case2 a => exact splitCommas_eq_self (hpiece a (by simp))
  | case3 a b args ih =>
    rw [argsText, splitCommas_append_comma (hpiece a (by simp)),
      ih (by simp) (List.forall_mem_cons.1 hargs).2 (List.forall_mem_cons.1 hpiece).2]
    rfl

/-- The operands of a line of tokens are its tokens. -/
theorem operands_argsText {args : List (List Char)} (hargs : ∀ a ∈ args, IsToken a) :
    operands (argsText args) = args := by
  unfold operands
  cases args with
  | nil => rfl
  | cons a args =>
    have hne : trim (argsText (a :: args)) ≠ [] := by
      obtain ⟨ha, -⟩ := List.forall_mem_cons.1 hargs
      obtain ⟨l, hl⟩ := exists_argsText_cons a args
      obtain ⟨c, hc⟩ := List.exists_mem_of_ne_nil a ha.ne_nil
      exact trim_ne_nil (c := c) (by simp [hl, hc]) (ha.not_blank hc)
    rw [if_neg hne, splitCommas_argsText (by simp) hargs, List.map_map]
    calc (a :: args).map (trim ∘ (' ' :: ·))
        = (a :: args).map id := List.map_congr_left fun b hb => (trim_blank_cons b).trans (hargs b hb).trim_eq
      _ = a :: args := List.map_id _

/-- The mnemonic of a line of tokens is its first token. -/
theorem mnemonicOf_line {m : List Char} (hm : IsToken m) (args : List (List Char)) :
    mnemonicOf (m ++ argsText args) = m := by
  rw [mnemonicOf, List.takeWhile_append_of_pos fun c hc => by simp [hm.not_blank hc]]
  cases args with
  | nil => simp [argsText]
  | cons a args =>
    obtain ⟨l, hl⟩ := exists_argsText_cons a args
    simp [hl, isBlank]

/-- The rest of it is its operands. -/
theorem dropMnemonic_line {m : List Char} (hm : IsToken m) (args : List (List Char)) :
    ((m ++ argsText args).dropWhile fun c => !isBlank c) = argsText args := by
  rw [List.dropWhile_append_of_pos fun c hc => by simp [hm.not_blank hc]]
  cases args with
  | nil => rfl
  | cons a args =>
    obtain ⟨l, hl⟩ := exists_argsText_cons a args
    simp [hl, isBlank]

/-- There is no semicolon in operands that are tokens. -/
theorem ne_semicolon_of_mem_argsText {args : List (List Char)} (hargs : ∀ a ∈ args, IsToken a) :
    ∀ c ∈ argsText args, c ≠ ';' := by
  induction args using argsText.induct with
  | case1 => simp [argsText]
  | case2 a =>
    exact List.forall_mem_cons.2 ⟨by decide, fun _ hc => (hargs a (by simp)).ne_semicolon hc⟩
  | case3 a b args ih =>
    obtain ⟨ha, hrest⟩ := List.forall_mem_cons.1 hargs
    rw [argsText, List.forall_mem_append, List.forall_mem_cons, List.forall_mem_cons]
    exact ⟨⟨by decide, fun _ hc => ha.ne_semicolon hc⟩, by decide, ih hrest⟩

/-- The operands in lower case are tokens. -/
theorem forall_isToken_lower {args : List (List Char)} (hargs : ∀ a ∈ args, IsToken a) :
    ∀ a ∈ args.map lower, IsToken a :=
  List.forall_mem_map.2 fun a ha => (hargs a ha).lower

/-- A line of tokens has no comment and no blank at either end; it is read in lower case. -/
theorem plainLine_line {m : List Char} {args : List (List Char)} (hm : IsToken m) (hargs : ∀ a ∈ args, IsToken a) :
    plainLine (m ++ argsText args) = lower m ++ argsText (args.map lower) := by
  have hcomment : ∀ c ∈ m ++ argsText args, (c != ';') = true := by
    intro c hc
    rw [bne_iff_ne]
    rcases List.mem_append.1 hc with hc | hc
    · exact hm.ne_semicolon hc
    · exact ne_semicolon_of_mem_argsText hargs c hc
  have hlower : (m ++ argsText args).map Char.toLower = lower m ++ argsText (args.map lower) := by
    rw [List.map_append, ← lower_argsText]; rfl
  rw [plainLine, List.takeWhile_eq_self_iff.2 hcomment, hlower, trim_line hm.lower (forall_isToken_lower hargs)]

/-- A `.word72` line is read as its digits. -/
theorem assembleLine_word72 {args : List (List Char)} (hargs : ∀ a ∈ args, IsToken a) :
    assembleLine (word72Text ++ argsText args) = (assembleRaw (args.map lower)).map some := by
  have hm : IsToken word72Text := ⟨by simp [word72Text], by simp [word72Text, isSeparator, isBlank]⟩
  have hlower : lower word72Text = word72Text := by decide
  have hplain := plainLine_line hm hargs
  rw [hlower] at hplain
  simp only [assembleLine, hplain, mnemonicOf_line hm, dropMnemonic_line hm,
    operands_argsText (forall_isToken_lower hargs), List.append_eq_nil_iff, hm.ne_nil, false_and, if_false, if_true]
  cases assembleRaw (args.map lower) <;> rfl

theorem isToken_op_text (op : Op) : IsToken (Op.text op) := by
  cases op <;> exact ⟨by simp [Op.text], by simp [Op.text, isSeparator, isBlank]⟩

theorem lower_op_text (op : Op) : lower (Op.text op) = Op.text op := by cases op <;> decide

theorem op_text_ne_word72Text (op : Op) : Op.text op ≠ word72Text := by cases op <;> decide

/-- A mnemonic is read back. -/
theorem readOp_text (op : Op) : readOp (Op.text op) = some op := by cases op <;> decide

/-- A line with a mnemonic is read as its operation and its operands. -/
theorem assembleLine_op (op : Op) {args : List (List Char)} (hargs : ∀ a ∈ args, IsToken a) :
    assembleLine (Op.text op ++ argsText args) = (assembleOperands op (args.map lower)).map (some ∘ encode) := by
  have hm := isToken_op_text op
  have hplain := plainLine_line hm hargs
  rw [lower_op_text] at hplain
  simp only [assembleLine, hplain, mnemonicOf_line hm, dropMnemonic_line hm, op_text_ne_word72Text, readOp_text,
    operands_argsText (forall_isToken_lower hargs), List.append_eq_nil_iff, hm.ne_nil, false_and, if_false]
  cases assembleOperands op (args.map lower) <;> rfl

/-! ### Numbers -/

/-- A digit the disassembler prints is read as its number, and ends no token. -/
theorem hexDigit_hexChar : ∀ d < 16, hexDigit (hexChar d).toLower = some d ∧ isSeparator (hexChar d) = false := by
  decide

@[simp] theorem length_lower (t : List Char) : (lower t).length = t.length := List.length_map _

@[simp] theorem length_hexText (k n : Nat) : (hexText k n).length = k := by
  induction k with
  | zero => rfl
  | succ k ih => rw [hexText, List.length_cons, ih]

/-- The printed digits of a number are read as what they leave of it, after the digits before them. -/
theorem digits_hexText (k n acc : Nat) :
    digits hexDigit 16 acc (lower (hexText k n)) = some (acc * 16 ^ k + n % 16 ^ k) := by
  induction k generalizing acc with
  | zero => simp [hexText, lower, digits, Nat.mod_one]
  | succ k ih =>
    obtain ⟨hdigit, -⟩ := hexDigit_hexChar (n / 16 ^ k % 16) (Nat.mod_lt _ (by decide))
    have hcons : lower (hexText (k + 1) n) = (hexChar (n / 16 ^ k % 16)).toLower :: lower (hexText k n) := rfl
    simp only [hcons, digits, hdigit, ih]
    congr 1
    rw [Nat.mod_pow_succ]
    ring

/-- Enough digits give the number back. -/
theorem hexNat_hexText {k n : Nat} (hk : 0 < k) (hn : n < 16 ^ k) : hexNat (lower (hexText k n)) = some n := by
  have hne : lower (hexText k n) ≠ [] := by
    rw [← List.length_pos_iff, length_lower, length_hexText]
    exact hk
  rw [hexNat, if_neg hne, digits_hexText, Nat.mod_eq_of_lt hn, Nat.zero_mul, Nat.zero_add]

theorem isSeparator_of_mem_hexText {k n : Nat} : ∀ c ∈ hexText k n, isSeparator c = false := by
  induction k with
  | zero => simp [hexText]
  | succ k ih =>
    exact List.forall_mem_cons.2 ⟨(hexDigit_hexChar _ (Nat.mod_lt _ (by decide))).2, ih⟩

theorem isToken_hexText (k n : Nat) : IsToken (hexText (k + 1) n) :=
  ⟨by simp [hexText], isSeparator_of_mem_hexText⟩

theorem isToken_wordText (v : Word) : IsToken (wordText v) := by
  refine ⟨by simp [wordText], ?_⟩
  rw [wordText, List.forall_mem_cons, List.forall_mem_cons]
  exact ⟨by decide, by decide, isSeparator_of_mem_hexText⟩

/-- A printed word is read back (R54). -/
theorem readWord_wordText (v : Word) : readWord (lower (wordText v)) = .ok v := by
  have hcons : lower (wordText v) = '0' :: 'x' :: lower (hexText 8 v.toNat) := rfl
  have hnat : hexNat (lower (hexText 8 v.toNat)) = some v.toNat := hexNat_hexText (by decide) v.isLt
  simp [hcons, readWord, readLiteral, hnat, Literal.value, v.isLt]

theorem isToken_reg_text (r : Reg) : IsToken r.text := by
  cases r <;> exact ⟨by simp [Reg.text], by simp [Reg.text, isSeparator, isBlank]⟩

/-- A register's name is read back (R10, R53). -/
theorem readReg_text (r : Reg) : readReg (lower r.text) = .ok r := by cases r <;> rfl

theorem indexText_of_ofIndex {k : RegIndex} {r : Reg} (h : Reg.ofIndex k = some r) : indexText k = r.text := by
  simp [indexText, h]

/-! ### The text of a word -/

/-- The operands the disassembler prints. -/
def argTexts : Instr → List (List Char)
  | .init => []
  | .wr r v => [indexText r, wordText v]
  | .rd r => [indexText r]
  | .calculate sp pv => [wordText sp, wordText pv]
  | .fromint n => [wordText n]
  | .frac a => [wordText a]
  | .mul a b => [wordText a, wordText b]
  | .div a b => [wordText a, wordText b]

/-- The text of an instruction is a line of its mnemonic and its operands. -/
theorem instrText_eq (i : Instr) : instrText i = Op.text i.op ++ argsText (argTexts i) := by
  cases i <;> rfl

/-- The printed operands of a well-formed instruction are tokens: its index has a name. -/
theorem isToken_argTexts {i : Instr} (h : i.wellFormed = true) : ∀ a ∈ argTexts i, IsToken a := by
  have hindex : ∀ k : RegIndex, RegIndex.wellFormed k = true → IsToken (indexText k) := by
    intro k hk
    obtain ⟨r, hr⟩ := ofIndex_eq_some hk
    rw [indexText_of_ofIndex hr]
    exact isToken_reg_text r
  cases i with
  | wr r v => simp [argTexts, hindex r h, isToken_wordText]
  | rd r => simp [argTexts, hindex r h]
  | init | calculate _ _ | fromint _ | frac _ | mul _ _ | div _ _ => simp [argTexts, isToken_wordText]

/-- The printed operands of a well-formed instruction are read back as it. -/
theorem assembleOperands_argTexts {i : Instr} (h : i.wellFormed = true) :
    assembleOperands i.op ((argTexts i).map lower) = .ok i := by
  cases i with
  | wr k v =>
    obtain ⟨r, hr⟩ := ofIndex_eq_some h
    simp [argTexts, Instr.op, assembleOperands, indexText_of_ofIndex hr, readReg_text, readWord_wordText,
      index_of_ofIndex k r hr, bind, Except.bind]
  | rd k =>
    obtain ⟨r, hr⟩ := ofIndex_eq_some h
    simp [argTexts, Instr.op, assembleOperands, indexText_of_ofIndex hr, readReg_text, index_of_ofIndex k r hr,
      bind, Except.bind]
  | init | calculate _ _ | fromint _ | frac _ | mul _ _ | div _ _ =>
    simp [argTexts, Instr.op, assembleOperands, readWord_wordText, bind, Except.bind]

/-- The digits of a `.word72` line are read back as the word. -/
theorem assembleRaw_hexText (w : Command) : assembleRaw [lower (hexText 18 w.toNat)] = .ok w := by
  have hnat : hexNat (lower (hexText 18 w.toNat)) = some w.toNat := hexNat_hexText (by decide) w.isLt
  simp [assembleRaw, hnat]

end Sys2Proof.Machine

open Sys2Proof Sys2Proof.Machine

/-- Settles O58: every other line gives the word of a well-formed instruction, and that decodes. -/
theorem assemblerNeverMakesAnIllegalCommand : Obligations.AssemblerNeverMakesAnIllegalCommand := by
  intro line w h hraw
  obtain ⟨i, hi, rfl⟩ := exists_encode_of_assembleLine h hraw
  exact (isLegal_eq_true_iff _).2 ⟨i, by rw [decode_encode, if_pos hi]⟩

/-- Settles O59: a legal word is printed as the line of its instruction, an illegal one as its digits; both are lines of
tokens, which are read back one by one. -/
theorem disassembledTextAssemblesBack : Obligations.DisassembledTextAssemblesBack := by
  intro w
  cases hd : decode w with
  | ok i =>
    have hi := wellFormed_of_decode hd
    have htext : disassemble w = Op.text i.op ++ argsText (argTexts i) := by
      rw [← instrText_eq]; simp [disassemble, hd]
    rw [htext, assembleLine_op i.op (isToken_argTexts hi), assembleOperands_argTexts hi, ← encode_of_decode hd]
    rfl
  | error e =>
    have htext : disassemble w = word72Text ++ argsText [hexText 18 w.toNat] := by simp [disassemble, hd, argsText]
    have htoken : ∀ a ∈ [hexText 18 w.toNat], IsToken a :=
      List.forall_mem_singleton.2 (isToken_hexText 17 _)
    rw [htext, assembleLine_word72 htoken, List.map_singleton, assembleRaw_hexText]
    rfl

end

section
/-! PROOF. The Q16.16 arithmetic (40_fixed_point_primitives.md R60 to R74): narrowing, and the products, quotients and
slices of 64-bit words that the primitives' results are read from. -/

namespace Sys2Proof.Machine

/-! ### Narrowing (R60, R65, R66) -/

/-- A narrowed integer is congruent to it modulo 2^32, and is it whenever it fits (R65, R66). -/
theorem wrap32_congruent (z : Int) : (∃ k : Int, (wrap32 z).toInt = z + k * 2 ^ 32) ∧
    (-(2 ^ 31) ≤ z → z ≤ 2 ^ 31 - 1 → (wrap32 z).toInt = z) := by
  obtain ⟨k, hk⟩ := exists_eq_toInt_wrap32_add z
  exact ⟨⟨-k, by linarith⟩, toInt_wrap32_of_fits⟩

/-- The order of words is the order of their real values (R11, R64). -/
theorem val_lt_val_iff (a b : Word) : val a < val b ↔ a.toInt < b.toInt := by
  rw [val, val, div_lt_div_iff_of_pos_right (by norm_num), Int.cast_lt]

/-! ### `FromInt` and `Frac` as slices of the operand (R67, R71) -/

/-- `FromInt` is the operand shifted left: its low half above 16 zeros (R67). -/
theorem fromInt_eq_append (n : Word) : fromInt n = n.extractLsb' 0 16 ++ 0#16 := by
  calc fromInt n = n * BitVec.twoPow 32 16 := by rw [fromInt, wrap32, BitVec.ofInt_mul, BitVec.ofInt_toInt]; rfl
    _ = n <<< 16 := BitVec.mul_twoPow_eq_shiftLeft n 16
    _ = n.extractLsb' 0 16 ++ 0#16 := BitVec.shiftLeft_eq_concat_of_lt (by decide)

/-- `Frac` is the operand's low half below 16 zeros (R71). -/
theorem frac_eq_append (a : Word) : frac a = 0#16 ++ a.extractLsb' 0 16 := by
  apply BitVec.eq_of_toNat_eq
  have hmask : a.toNat &&& 65535 = a.toNat % 65536 := Nat.and_two_pow_sub_one_eq_mod a.toNat 16
  rw [BitVec.toNat_append]
  simp [frac, hmask]

/-- The raw value of `Frac` is the remainder by 1.0, never negative (R71). -/
theorem toInt_frac (a : Word) : (frac a).toInt = a.toInt % 65536 := by
  have hlow : (frac a).toInt = a.toNat % 65536 := by
    rw [frac_eq_append, BitVec.toInt_zero_append]
    simp
  rw [hlow, BitVec.toInt_eq_toNat_cond]
  split <;> omega

/-- The floor of a word's real value is its raw value divided by 1.0, rounded down (R11). -/
theorem floor_val (a : Word) : (val a).floor = a.toInt / 65536 :=
  Rat.floor_intCast_div_natCast a.toInt 65536

/-! ### `Mul` as bits of the 64-bit product (R72) -/

/-- A 64-bit product that does not overflow is exact. -/
theorem toInt_mul_of_fits {x y : BitVec 64} (h₁ : -(2 ^ 63) ≤ x.toInt * y.toInt) (h₂ : x.toInt * y.toInt < 2 ^ 63) :
    (x * y).toInt = x.toInt * y.toInt := by
  rw [BitVec.toInt_mul]
  exact Int.bmod_eq_of_le (by omega) (by omega)

/-- Sign extension keeps the signed value. -/
@[simp] theorem toInt_signExtend64 (a : Word) : (a.signExtend 64).toInt = a.toInt :=
  BitVec.toInt_signExtend_of_le (by decide)

/-- The 64-bit product of two words does not overflow (R72). -/
theorem toInt_signExtend_mul (a b : Word) : (a.signExtend 64 * b.signExtend 64).toInt = a.toInt * b.toInt := by
  have hlow : -(2 ^ 62) ≤ a.toInt * b.toInt := BitVec.le_toInt_mul_toInt
  have hhigh : a.toInt * b.toInt ≤ 2 ^ 62 := BitVec.toInt_mul_toInt_le
  have hexact := toInt_mul_of_fits (x := a.signExtend 64) (y := b.signExtend 64)
  simp only [toInt_signExtend64] at hexact
  exact hexact (by omega) (by omega)

/-- `Mul` is the low half of the product shifted right arithmetically by 16 (R72). -/
theorem mul_eq_sshiftRight (a b : Word) :
    mul a b = ((a.signExtend 64 * b.signExtend 64).sshiftRight 16).extractLsb' 0 32 := by
  rw [low32_eq_wrap32, BitVec.toInt_sshiftRight, toInt_signExtend_mul, Int.shiftRight_eq_div_pow]
  rfl

/-- The low half of a word shifted right by 16 is its bits 47..16. -/
theorem extractLsb'_sshiftRight_16 (x : BitVec 64) : (x.sshiftRight 16).extractLsb' 0 32 = x.extractLsb' 16 32 := by
  apply BitVec.eq_of_getLsbD_eq
  intro i hi
  have hin : ¬ 64 ≤ i := by omega
  have hshifted : 16 + i < 64 := by omega
  rw [BitVec.getLsbD_extractLsb', BitVec.getLsbD_extractLsb', BitVec.getLsbD_sshiftRight]
  simp [hin, hshifted]

/-- `Mul` is bits 47..16 of the product (R72). -/
theorem mul_eq_extractLsb' (a b : Word) : mul a b = (a.signExtend 64 * b.signExtend 64).extractLsb' 16 32 := by
  rw [mul_eq_sshiftRight, extractLsb'_sshiftRight_16]

/-- `Mul` is the floor of the exact product over 2^16, narrowed (R72). -/
theorem mul_eq_fdiv (a b : Word) : mul a b = wrap32 (Int.fdiv (a.toInt * b.toInt) 65536) := by
  rw [Int.fdiv_eq_ediv_of_nonneg _ (by decide)]
  rfl

/-- A product with -1.0 is the negated raw value, narrowed (R73 (e)). -/
theorem mul_neg_one (a : Word) : mul a 0xFFFF0000#32 = wrap32 (-a.toInt) := by
  have hneg : a.toInt * (0xFFFF0000#32).toInt = -a.toInt * 65536 := by
    have hone : (0xFFFF0000#32).toInt = -65536 := by decide
    rw [hone]
    ring
  rw [mul, hneg]
  exact congrArg wrap32 (Int.mul_ediv_cancel _ (by decide))

/-! ### `Div` as the low half of the 64-bit quotient (R74) -/

/-- The dividend shifted left by 16 does not overflow 64 bits (R74). -/
theorem toInt_dividend (a : Word) : (a.signExtend 64 <<< 16).toInt = a.toInt * 65536 := by
  obtain ⟨hlow, hhigh⟩ := toInt_range a
  have hone : (BitVec.twoPow 64 16).toInt = 65536 := by decide
  have hexact := toInt_mul_of_fits (x := a.signExtend 64) (y := BitVec.twoPow 64 16)
  rw [toInt_signExtend64, hone] at hexact
  rw [BitVec.shiftLeft_eq_mul_twoPow]
  exact hexact (by omega) (by omega)

/-- The 64-bit quotient does not overflow: the dividend is not the least 64-bit integer (R74). -/
theorem toInt_quotient (a b : Word) :
    ((a.signExtend 64 <<< 16).sdiv (b.signExtend 64)).toInt = Int.tdiv (a.toInt * 65536) b.toInt := by
  have hne : a.signExtend 64 <<< 16 ≠ BitVec.intMin 64 := by
    intro h
    have hmin := toInt_dividend a
    rw [h, show (BitVec.intMin 64).toInt = -(2 ^ 63) by decide] at hmin
    have hrange := toInt_range a
    omega
  rw [BitVec.toInt_sdiv_of_ne_or_ne _ _ (.inl hne), toInt_dividend, toInt_signExtend64]

/-- `Div` is the low half of the quotient (R74). -/
theorem divNonzero_eq_extractLsb' (a b : Word) :
    divNonzero a b = ((a.signExtend 64 <<< 16).sdiv (b.signExtend 64)).extractLsb' 0 32 := by
  rw [low32_eq_wrap32, toInt_quotient]
  rfl

/-- Truncated division by magnitudes: the quotient of the magnitudes, negated when exactly one operand is negative
(R74, decision D9). -/
theorem tdiv_eq_of_signs (x y : Int) : Int.tdiv x y =
    if (x < 0 ↔ y < 0) then ((x.natAbs / y.natAbs : Nat) : Int) else -((x.natAbs / y.natAbs : Nat) : Int) := by
  cases x with
  | ofNat m =>
    have hm : ¬ Int.ofNat m < 0 := by simp
    cases y with
    | ofNat n => exact (if_pos (iff_of_false hm (by simp))).symm
    | negSucc n => exact (if_neg fun h => hm (h.2 (Int.negSucc_lt_zero n))).symm
  | negSucc m =>
    have hm := Int.negSucc_lt_zero m
    cases y with
    | ofNat n => exact (if_neg fun h => absurd (h.1 hm) (by simp)).symm
    | negSucc n => exact (if_pos (iff_of_true hm (Int.negSucc_lt_zero n))).symm

end Sys2Proof.Machine

open Sys2Proof Sys2Proof.Machine

/-- Settles O18: each result is the narrowing of the exact one. -/
theorem narrowingIsWraparound : Obligations.NarrowingIsWraparound := by
  intro a b
  refine ⟨wrap32_congruent _, wrap32_congruent _, wrap32_congruent _, ?_, fun _ => wrap32_congruent _⟩
  rw [mul_eq_fdiv]
  exact wrap32_congruent _

/-- Settles O19, by the adder and the subtractor of 32-bit words. -/
theorem addAndSubtractAreTheLow32Bits : Obligations.AddAndSubtractAreTheLow32Bits := by
  intro a b c
  refine ⟨rfl, ?_, ?_, ?_, rfl, ?_⟩
  · rw [add32_eq, BitVec.ofNat_add, BitVec.ofNat_toNat, BitVec.ofNat_toNat, BitVec.setWidth_eq, BitVec.setWidth_eq]
  · rw [add32_eq, add32_eq, BitVec.add_comm]
  · simp only [add32_eq, BitVec.add_assoc]
  · rw [add32_eq, sub32_eq, BitVec.sub_add_cancel]

/-- Settles O20: the compares are the order of the signed values, and that is the order of the real values. -/
theorem comparesOrderTheRealValues : Obligations.ComparesOrderTheRealValues := fun a b =>
  ⟨gts_iff a b, lts_iff a b, (gts_iff a b).trans (val_lt_val_iff b a).symm,
    (lts_iff a b).trans (val_lt_val_iff a b).symm⟩

/-- Settles O21: only the low half of the operand reaches the result. -/
theorem fromIntIsExactOn16BitIntegers : Obligations.FromIntIsExactOn16BitIntegers := by
  refine ⟨fromInt_eq_append, fun n hlow hhigh => ?_, fun n m h => ?_, by decide, by decide, by decide⟩
  · simpa using toFloat_fromInt_wrap32 hlow hhigh
  · rw [fromInt_eq_append, fromInt_eq_append, h]

/-- Settles O22: the raw value of `Frac` is the remainder by 1.0, and the floor is the quotient. -/
theorem fracIsTheValueLessItsFloor : Obligations.FracIsTheValueLessItsFloor := by
  intro a
  have hrem : (a.toInt : Rat) = 65536 * (a.toInt / 65536 : Int) + (frac a).toInt := by
    rw [toInt_frac]
    exact_mod_cast (Int.mul_ediv_add_emod a.toInt 65536).symm
  have hlow : (0 : Rat) ≤ (frac a).toInt := by
    rw [toInt_frac]
    exact_mod_cast Int.emod_nonneg a.toInt (by decide)
  have hhigh : ((frac a).toInt : Rat) < 65536 := by
    rw [toInt_frac]
    exact_mod_cast Int.emod_lt_of_pos a.toInt (by decide)
  refine ⟨frac_eq_append a, ?_, ?_, ?_⟩
  · rw [floor_val, val, val]
    linarith
  · exact div_nonneg hlow (by norm_num)
  · exact (div_lt_one (by norm_num)).2 hhigh

/-- Settles O23: the product is exact in 64 bits, and its shift is the floor. -/
theorem mulIsTheShiftedExactProduct : Obligations.MulIsTheShiftedExactProduct := fun a b =>
  ⟨toInt_signExtend_mul a b, mul_eq_extractLsb' a b, mul_eq_sshiftRight a b, mul_eq_fdiv a b⟩

/-- Settles O24. The products of small fractions that round down to 0 refute associativity and distributivity. -/
theorem mulHasTheListedProperties : Obligations.MulHasTheListedProperties := by
  refine ⟨fun a b => ?_, mul32_one, mul32_zero, ?_, ?_, mul_neg_one, by decide⟩
  · rw [mul, mul, Int.mul_comm]
  · exact ⟨0x00000001#32, 0x00008000#32, 0x00020000#32, by decide⟩
  · exact ⟨0x00008000#32, 0x00000001#32, 0x00000001#32, by decide⟩

/-- Settles O25: neither the dividend nor the quotient overflows, so the low half of the quotient is its narrowing. -/
theorem divIsTheTruncated64BitQuotient : Obligations.DivIsTheTruncated64BitQuotient := fun a b _ =>
  ⟨toInt_dividend a, toInt_quotient a b, divNonzero_eq_extractLsb' a b⟩

/-- Settles O26: the exact quotient is the dividend's raw value, 0, and the raw value of 1.0. -/
theorem divHasTheListedIdentities : Obligations.DivHasTheListedIdentities := by
  refine ⟨fun a => ?_, fun b _ => ?_, fun a ha => ?_⟩
  · have hquotient : Int.tdiv (a.toInt * Config.one) (0x00010000#32).toInt = a.toInt :=
      Int.mul_tdiv_cancel _ (by decide)
    rw [divNonzero, hquotient, wrap32_toInt]
  · have hquotient : Int.tdiv ((0#32).toInt * Config.one) b.toInt = 0 := Int.zero_tdiv _
    rw [divNonzero, hquotient]
    rfl
  · have hquotient : Int.tdiv (a.toInt * Config.one) a.toInt = 65536 := Int.mul_tdiv_cancel_left _ (toInt_ne_zero ha)
    rw [divNonzero, hquotient]
    rfl

/-- Settles O27: 1.0 is positive, so the shifted dividend has the sign of the operand and 65536 times its magnitude. -/
theorem divRoundsTowardZeroForEverySign : Obligations.DivRoundsTowardZeroForEverySign := by
  intro a b _
  have hsign : a.toInt * 65536 < 0 ↔ a.toInt < 0 := by omega
  have hmagnitude : (a.toInt * 65536).natAbs = a.toInt.natAbs * 65536 := Int.natAbs_mul _ _
  have hquotient := tdiv_eq_of_signs (a.toInt * 65536) b.toInt
  simp only [hsign, hmagnitude] at hquotient
  exact congrArg wrap32 hquotient

end

section
/-! PROOF. The primitive commands `FROMINT`, `FRAC`, `MUL`, `DIV` (40_fixed_point_primitives.md R76 to R79): one response
and nothing else changed, a word with a nonzero reserved field refused, and which steps draw a quotient (R75). -/

namespace Sys2Proof.Machine

variable {s : State} {w : Command} {rest : List HostEvent} {i : Instr}

/-- An instruction that keeps the registers and divides by no zero gives its response and changes nothing else. -/
theorem exec_of_regs_kept (hregs : regsAfter i s.regs = s.regs) (hdraw : dividesByZero i s.regs = false) :
    exec i s = .next (s.answered s.regs s.draws (responseTo i s).ok (responseTo i s).result) := by
  rw [exec_eq, hregs, hdraw]
  rfl

/-- A step with a word at the port whose legality is a condition: its instruction, or the refusal (R48, R101). -/
theorem step_of_decode_ite {c : Prop} [Decidable c] (hp : s.pending = .command w :: rest)
    (hw : decode w = if c then .ok i else .error .illegalCommand) :
    step s = if c then exec i (s.took (.command w) rest)
      else .next ((s.took (.command w) rest).answered s.regs s.draws false 0#32) := by
  rw [step_of_command hp, hw]
  split_ifs <;> rfl

/-- `FROMINT` executed (R76). -/
theorem exec_fromint (s : State) (n : Word) :
    exec (.fromint n) s = .next (s.answered s.regs s.draws true (n.extractLsb' 0 16 ++ 0#16)) := by
  rw [exec_of_regs_kept rfl rfl, ← fromInt_eq_append]
  rfl

/-- `FRAC` executed (R77). -/
theorem exec_frac (s : State) (a : Word) :
    exec (.frac a) s = .next (s.answered s.regs s.draws true (0#16 ++ a.extractLsb' 0 16)) := by
  rw [exec_of_regs_kept rfl rfl, ← frac_eq_append]
  rfl

/-- `MUL` executed (R78). -/
theorem exec_mul (s : State) (a b : Word) : exec (.mul a b) s =
    .next (s.answered s.regs s.draws true ((a.signExtend 64 * b.signExtend 64).extractLsb' 16 32)) := by
  rw [exec_of_regs_kept rfl rfl, ← mul_eq_extractLsb']
  rfl

/-- `DIV` executed, with a nonzero divisor (R79). -/
theorem exec_div_nonzero (s : State) (a : Word) {b : Word} (hb : b ≠ 0#32) : exec (.div a b) s =
    .next (s.answered s.regs s.draws true (((a.signExtend 64 <<< 16).sdiv (b.signExtend 64)).extractLsb' 0 32)) := by
  have hdraw : dividesByZero (.div a b) s.regs = false := beq_false_of_ne hb
  rw [exec_of_regs_kept rfl hdraw, ← divNonzero_eq_extractLsb', responseTo, divide_nonzero a s hb]

/-! ### Draws (R75) -/

/-- The next command keeps the obligations only if it does not divide by zero (R127). -/
theorem dividesByZero_of_obeys (hp : s.pending = .command w :: rest) (hw : decode w = .ok i) (h : s.obeys = true) :
    dividesByZero i s.regs = false := by
  have hfetch : s.fetch = .run i := by simp [State.fetch, hp, hw]
  simp only [State.obeys, hfetch] at h
  cases i with
  | calculate sp pv =>
    have hdt : s.regs.dt ≠ 0#32 := by
      simp only [Regs.configured, Bool.and_eq_true, bne_iff_ne] at h
      exact h.1
    exact beq_false_of_ne hdt
  | div a b => exact beq_false_of_ne (bne_iff_ne.1 h)
  | init | wr _ _ | rd _ | fromint _ | frac _ | mul _ _ => rfl

end Sys2Proof.Machine

open Sys2Proof Sys2Proof.Machine

/-- Settles O14, by what the instruction does and by the fields of a word with its opcode. -/
theorem fromintShiftsLeftBySixteen : Obligations.FromintShiftsLeftBySixteen := by
  refine ⟨exec_fromint, fun s w rest hp hop => ?_⟩
  have hw : decode w = if rField w = 0#4 ∧ bField w = 0#32 then .ok (.fromint (aField w))
      else .error .illegalCommand := by simp [decode_by_fields, hop]
  rw [step_of_decode_ite hp hw, exec_fromint]
  rfl

/-- Settles O15, by what the instruction does and by the fields of a word with its opcode. -/
theorem fracKeepsTheLowSixteenBits : Obligations.FracKeepsTheLowSixteenBits := by
  refine ⟨exec_frac, fun s w rest hp hop => ?_⟩
  have hw : decode w = if rField w = 0#4 ∧ bField w = 0#32 then .ok (.frac (aField w))
      else .error .illegalCommand := by simp [decode_by_fields, hop]
  rw [step_of_decode_ite hp hw, exec_frac]
  rfl

/-- Settles O16, by what the instruction does and by the fields of a word with its opcode. -/
theorem mulRespondsBits47To16OfTheProduct : Obligations.MulRespondsBits47To16OfTheProduct := by
  refine ⟨exec_mul, fun s w rest hp hop => ?_⟩
  have hw : decode w = if rField w = 0#4 then .ok (.mul (aField w) (bField w))
      else .error .illegalCommand := by simp [decode_by_fields, hop]
  rw [step_of_decode_ite hp hw, exec_mul]
  rfl

/-- Settles O17: a zero divisor's quotient is the free value of the draw it counts. -/
theorem divRespondsTheTruncatedQuotient : Obligations.DivRespondsTheTruncatedQuotient := by
  refine ⟨fun s a b hb => exec_div_nonzero s a hb, fun s a => ⟨(divide a 0#32 s).1, exec_eq (.div a 0#32) s⟩,
    fun s w rest hp hop => ?_⟩
  have hw : decode w = if rField w = 0#4 then .ok (.div (aField w) (bField w))
      else .error .illegalCommand := by simp [decode_by_fields, hop]
  exact step_of_decode_ite hp hw

/-- Settles O52, by what a step can do: only a command that divides by zero counts a draw, and it counts one. -/
theorem obligationsKeptMeansNoDraw : Obligations.ObligationsKeptMeansNoDraw := by
  constructor
  · intro s t hobeys hstep
    rcases step_cases s with ⟨-, he⟩ | ⟨d, rest, -, he⟩ | ⟨w, rest, -, -, he⟩ | ⟨w, rest, i, hp, hw, he⟩ <;>
      obtain rfl := Host.Outcome.next.inj (he.symm.trans hstep)
    · rfl
    · rfl
    · rfl
    · exact if_neg (Bool.eq_false_iff.1 (dividesByZero_of_obeys hp hw hobeys))
  · intro s w rest i hp hw hzero
    rw [step_of_command hp, hw]
    exact ⟨_, exec_eq i _, if_pos hzero⟩

end

section
/-! PROOF. `FromFloat` and `ToFloat` against each other (40_fixed_point_primitives.md R68 to R70): rounding moves a number
by at most half a unit, and not at all when it is a whole number of units. -/

namespace Sys2Proof.Machine

/-- The rounded raw value is within half a unit of the exact one (R68). -/
theorem abs_roundRaw_sub_le (f : Rat) : |(roundRaw f : Rat) - f * 65536| ≤ 1 / 2 := by
  unfold roundRaw
  split_ifs
  · have hle := Rat.floor_le (f * 65536 + 1 / 2)
    have hlt := Rat.lt_floor (x := f * 65536 + 1 / 2)
    rw [abs_le]
    constructor <;> linarith
  · have hle := Rat.floor_le (-f * 65536 + 1 / 2)
    have hlt := Rat.lt_floor (x := -f * 65536 + 1 / 2)
    rw [abs_le]
    push_cast
    constructor <;> linarith

/-- The raw value of a word's own number is the word's (R70). -/
theorem roundRaw_toFloat (a : Word) : roundRaw (toFloat a) = a.toInt := by
  have hraw : toFloat a * 65536 = a.toInt := div_mul_cancel₀ _ (by norm_num)
  have hnear := abs_roundRaw_sub_le (toFloat a)
  rw [hraw] at hnear
  have hlt : |roundRaw (toFloat a) - a.toInt| < 1 := by
    have hcast : |(roundRaw (toFloat a) : Rat) - a.toInt| < 1 := by linarith
    exact_mod_cast hcast
  exact sub_eq_zero.1 (Int.abs_lt_one_iff.1 hlt)

/-- Where `FromFloat` gives a word, the word's raw value is the rounded one, not wrapped (R68, R69). -/
theorem toInt_of_fromFloat {f : Rat} {a : Word} (h : fromFloat f = some a) : a.toInt = roundRaw f := by
  rw [fromFloat_eq, ← if_congr (roundRaw_fits_iff f) rfl rfl] at h
  split_ifs at h with hfits
  · obtain rfl := Option.some.inj h
    exact toInt_wrap32_of_fits hfits.1 hfits.2

end Sys2Proof.Machine

open Sys2Proof Sys2Proof.Machine

/-- Settles O55, by the closed form of `FromFloat`. -/
theorem fromFloatRoundsHalfAwayFromZero : Obligations.FromFloatRoundsHalfAwayFromZero := fromFloat_eq

/-- Settles O56: a word's own number is already a whole number of units, and rounding moves any number by at most half
a unit of 2^-16. -/
theorem fromFloatAndToFloatRoundTrip : Obligations.FromFloatAndToFloatRoundTrip := by
  refine ⟨fun a => ?_, fun f a h => ?_⟩
  · have hfits := toInt_range a
    rw [← roundRaw_toFloat a, roundRaw_fits_iff] at hfits
    rw [fromFloat_eq, if_pos hfits, roundRaw_toFloat, wrap32_toInt]
  · have hraw : toFloat a - f = (roundRaw f - f * 65536) / 65536 := by
      rw [toFloat, val, toInt_of_fromFloat h]
      ring
    rw [hraw, abs_div, abs_of_pos (by norm_num : (0 : Rat) < 65536), div_le_iff₀ (by norm_num)]
    calc |(roundRaw f : Rat) - f * 65536| ≤ 1 / 2 := abs_roundRaw_sub_le f
      _ = 1 / 2 ^ 17 * 65536 := by norm_num

end

section
/-! PROOF. The commands `INIT`, `WR` and `RD` (41_pid_controller.md R81 to R83): what each does in closed form, which
indices are refused, and what a word with its opcode does at the port. -/

namespace Sys2Proof.Machine

/-- `INIT` executed (R81). -/
theorem exec_init (s : State) : exec .init s = .next (s.answered Regs.zero s.draws true 0#32) := exec_eq .init s

/-- `WR` of a register executed (R82). -/
theorem exec_wr_index (s : State) (q : Reg) (v : Word) :
    exec (.wr q.index v) s = .next (s.answered (s.regs.write q v) s.draws true 0#32) := by
  rw [exec_eq, regsAfter_wr_some v s.regs (ofIndex_index q), responseTo, wellFormed_index]
  rfl

/-- `RD` of a register executed (R83). -/
theorem exec_rd_index (s : State) (q : Reg) :
    exec (.rd q.index) s = .next (s.answered s.regs s.draws true (s.regs.read q)) := by
  rw [exec_of_regs_kept rfl rfl]
  simp [responseTo]

/-- `WR` and `RD` with an index of 8 to 15, the only ill-formed instructions, are refused (R48 (b), R101). -/
theorem exec_of_not_wellFormed {i : Instr} (s : State) (h : i.wellFormed = false) :
    exec i s = .next (s.answered s.regs s.draws false 0#32) := by
  cases i with
  | wr k v =>
    have hk : RegIndex.wellFormed k = false := h
    rw [exec_of_regs_kept (regsAfter_wr_none v s.regs (ofIndex_eq_none hk)) rfl, responseTo, hk]
  | rd k =>
    have hk : Reg.ofIndex k = none := ofIndex_eq_none h
    rw [exec_of_regs_kept rfl rfl]
    simp [responseTo, hk]
  | init | calculate _ _ | fromint _ | frac _ | mul _ _ | div _ _ => exact Bool.noConfusion h

/-- An index below 8 is the index of a register (R10). -/
theorem exists_index_eq {k : RegIndex} (h : k.toNat < 8) : ∃ q : Reg, q.index = k := by
  obtain ⟨q, hq⟩ := ofIndex_eq_some (k := k) (decide_eq_true h)
  exact ⟨q, index_of_ofIndex k q hq⟩

/-- `WR` with an index below 8 executed, by the position of the register in the order of R10 (R82). -/
theorem exec_wr_of_lt {k : RegIndex} (s : State) (v : Word) (h : k.toNat < 8) :
    ∃ t, exec (.wr k v) s = .next t ∧ t.regs.toList = s.regs.toList.set k.toNat v ∧
      t = s.answered t.regs s.draws true 0#32 := by
  obtain ⟨q, rfl⟩ := exists_index_eq h
  exact ⟨_, exec_wr_index s q v, write_toList s.regs q v, rfl⟩

/-- `RD` of an index at which the record holds a value (R83). -/
theorem exec_rd_of_getElem? {k : RegIndex} {s : State} {v : Word} (h : s.regs.toList[k.toNat]? = some v) :
    exec (.rd k) s = .next (s.answered s.regs s.draws true v) := by
  have hlt : k.toNat < 8 := (List.getElem?_eq_some_iff.1 h).1
  obtain ⟨q, rfl⟩ := exists_index_eq hlt
  rw [read_eq_toList] at h
  rw [exec_rd_index, Option.some.inj h]

end Sys2Proof.Machine

open Sys2Proof Sys2Proof.Machine

/-- Settles O9, by what `INIT` does and by the fields of a word with its opcode. -/
theorem initZeroesTheStateRecord : Obligations.InitZeroesTheStateRecord := by
  refine ⟨fun s => ⟨_, exec_init s, rfl, rfl⟩, fun s w rest hp hop => ?_, fun s t u hst htu => ?_⟩
  · have hw : decode w = if rField w = 0#4 ∧ aField w = 0#32 ∧ bField w = 0#32 then .ok .init
        else .error .illegalCommand := by simp [decode_by_fields, hop]
    rw [step_of_decode_ite hp hw, exec_init]
    rfl
  · rw [regs_of_exec hst, regs_of_exec htu, regsAfter_init, regsAfter_init]

/-- Settles O10: an index below 8 is a register's own, and any other index or a nonzero `B` is refused. -/
theorem wrWritesExactlyTheNamedRegister : Obligations.WrWritesExactlyTheNamedRegister := by
  refine ⟨fun s r v hr => exec_wr_of_lt s v hr, fun s r v hr => ?_, fun s w rest hp hop => ?_⟩
  · exact exec_of_not_wellFormed s (Bool.eq_false_iff.2 ((eight_le_index_iff r).1 hr))
  · have hw : decode w = if (rField w).toNat < 8 ∧ bField w = 0#32 then .ok (.wr (rField w) (aField w))
        else .error .illegalCommand := by simp [decode_by_fields, hop, RegIndex.wellFormed]
    rw [step_of_decode_ite hp hw]
    split_ifs with hlegal
    · exact exec_wr_of_lt (s.took (.command w) rest) (aField w) hlegal.1
    · rfl

/-- Settles O11: an index holds a value of the record exactly when it is below 8, and any other index or a nonzero `A`
or `B` is refused. -/
theorem rdReturnsTheNamedRegister : Obligations.RdReturnsTheNamedRegister := by
  refine ⟨fun s r v hv => exec_rd_of_getElem? hv, fun s r hr => ?_, fun s w rest hp hop => ?_⟩
  · exact exec_of_not_wellFormed s (Bool.eq_false_iff.2 ((eight_le_index_iff r).1 hr))
  · have hw : decode w = if (rField w).toNat < 8 ∧ aField w = 0#32 ∧ bField w = 0#32 then .ok (.rd (rField w))
        else .error .illegalCommand := by simp [decode_by_fields, hop, RegIndex.wellFormed]
    rw [step_of_decode_ite hp hw]
    cases hv : s.regs.toList[(rField w).toNat]? with
    | some v =>
      have hlt : (rField w).toNat < 8 := (List.getElem?_eq_some_iff.1 hv).1
      have hrd : exec (.rd (rField w)) (s.took (.command w) rest) =
          .next ((s.took (.command w) rest).answered s.regs s.draws true v) := exec_rd_of_getElem? hv
      simp only [hlt, true_and, hrd]
    | none =>
      have hge : ¬ (rField w).toNat < 8 := Nat.not_lt.2 (List.getElem?_eq_none_iff.1 hv)
      simp only [hge, false_and, if_false]

end

section
/-! PROOF. `CALC` (41_pid_controller.md R84 to R91): its ten steps in closed form with and without a zero `Dt`, and the
clamp of its output. -/

namespace Sys2Proof.Machine

/-! ### `CALC` (R84, R88) -/

/-- `CALC` executed: the registers it leaves, the draw it counts when `Dt = 0`, and its output. -/
theorem exec_calculate (s : State) (sp pv : Word) : exec (.calculate sp pv) s =
    .next (s.answered (regsAfter (.calculate sp pv) s.regs) (if s.regs.dt = 0#32 then s.draws + 1 else s.draws) true
      (calcOutput s.regs (calcQuotient s sp pv) sp pv)) := by
  simp [exec_eq, dividesByZero, responseTo, State.answered]

/-- With `Dt ≠ 0` the quotient of step 5 is R74's, the same in every state with these registers. -/
theorem calcQuotient_of_dt_ne_zero {s : State} (sp pv : Word) (hdt : s.regs.dt ≠ 0#32) :
    calcQuotient s sp pv = divNonzero (sub32 (sub32 sp pv) s.regs.prevError) s.regs.dt := by
  rw [calcQuotient, divide_nonzero _ s hdt]

/-- `CALC` executed with `Dt ≠ 0`: it draws nothing (R84). -/
theorem exec_calculate_of_dt_ne_zero {s : State} (sp pv : Word) (hdt : s.regs.dt ≠ 0#32) : exec (.calculate sp pv) s =
    .next (s.answered (regsAfter (.calculate sp pv) s.regs) s.draws true
      (calcOutput s.regs (divNonzero (sub32 (sub32 sp pv) s.regs.prevError) s.regs.dt) sp pv)) := by
  rw [exec_calculate, if_neg hdt, calcQuotient_of_dt_ne_zero sp pv hdt]

/-- With `Dt = 0` step 3 adds nothing to `Integral` (R88). -/
theorem regsAfter_calculate_of_dt_eq_zero {x : Regs} (sp pv : Word) (hdt : x.dt = 0#32) :
    regsAfter (.calculate sp pv) x = { x with prevError := sub32 sp pv } := by
  simp [regsAfter, hdt, add32_eq]

/-- With `Dt = 0` the output is the clamped sum over the old `Integral` (R88). -/
theorem calcOutput_of_dt_eq_zero {x : Regs} (q sp pv : Word) (hdt : x.dt = 0#32) : calcOutput x q sp pv =
    clamp (add32 (add32 (mul x.kp (sub32 sp pv)) (mul x.ki x.integral)) (mul x.kd q)) x.min x.max := by
  simp [calcOutput, hdt, add32_eq]

/-- `CALC` executed with `Dt = 0`: the quotient is the one drawn (R88, D11). -/
theorem exec_calculate_of_dt_eq_zero {s : State} (sp pv : Word) (hdt : s.regs.dt = 0#32) :
    exec (.calculate sp pv) s = .next (s.answered { s.regs with prevError := sub32 sp pv } (s.draws + 1) true
      (clamp (add32 (add32 (mul s.regs.kp (sub32 sp pv)) (mul s.regs.ki s.regs.integral))
        (mul s.regs.kd (calcQuotient s sp pv))) s.regs.min s.regs.max)) := by
  rw [exec_calculate, if_pos hdt, regsAfter_calculate_of_dt_eq_zero sp pv hdt, calcOutput_of_dt_eq_zero _ sp pv hdt]

/-! ### The clamp (R90) -/

/-- The clamp on the signed values. -/
theorem clamp_eq (s lo hi : Word) :
    clamp s lo hi = if hi.toInt < s.toInt then hi else if s.toInt < lo.toInt then lo else s := by
  simp [clamp, gts_iff, lts_iff]

/-- With bounds in order the clamp answers within them (R90). -/
theorem clamp_within {lo hi : Word} (s : Word) (h : lo.toInt ≤ hi.toInt) :
    lo.toInt ≤ (clamp s lo hi).toInt ∧ (clamp s lo hi).toInt ≤ hi.toInt := by
  rw [clamp_eq]
  split_ifs <;> omega

/-- With bounds crossed the clamp answers one of them and never the value (R90, R129). -/
theorem clamp_crossed {lo hi : Word} (s : Word) (h : hi.toInt < lo.toInt) :
    clamp s lo hi = (if hi.toInt < s.toInt then hi else lo) ∧ clamp s lo hi ≠ s := by
  rw [clamp_eq]
  split_ifs with habove hbelow
  · exact ⟨rfl, fun he => by rw [he] at habove; omega⟩
  · exact ⟨rfl, fun he => by rw [he] at hbelow; omega⟩
  · omega

end Sys2Proof.Machine

open Sys2Proof Sys2Proof.Machine

/-- Settles O12, by what `CALC` does with the quotient of R74 and by the fields of a word with its opcode. -/
theorem calcPerformsTheTenSteps : Obligations.CalcPerformsTheTenSteps := by
  intro s sp pv hdt
  simp only [← clamp_eq]
  refine ⟨exec_calculate_of_dt_ne_zero sp pv hdt, fun w rest hp hop ha hb => ?_⟩
  have hw : decode w = if rField w = 0#4 then .ok (.calculate sp pv)
      else .error .illegalCommand := by simp [decode_by_fields, hop, ha, hb]
  rw [step_of_decode_ite hp hw, exec_calculate_of_dt_ne_zero (s := s.took (.command w) rest) sp pv hdt]
  rfl

/-- Settles O13: the quotient is the word drawn. -/
theorem calcWithZeroDtCompletesWithSomeQuotient : Obligations.CalcWithZeroDtCompletesWithSomeQuotient :=
  fun s sp pv hdt => ⟨calcQuotient s sp pv, exec_calculate_of_dt_eq_zero sp pv hdt⟩

/-- Settles O28, by the order of the clamp's two tests. -/
theorem clampTestsMaxFirst : Obligations.ClampTestsMaxFirst := by
  intro s lo hi
  refine ⟨fun habove => ?_, fun hmax hbelow => ?_, fun hmin hmax => ?_, clamp_within s, clamp_crossed s⟩
  · rw [clamp_eq, if_pos habove]
  · rw [clamp_eq, if_neg (Int.not_lt.2 hmax), if_pos hbelow]
  · rw [clamp_eq, if_neg (Int.not_lt.2 hmax), if_neg (Int.not_lt.2 hmin)]

/-- Settles O29: the response is a clamped value, whatever the quotient in it. -/
theorem calcResponseStaysWithinTheBounds : Obligations.CalcResponseStaysWithinTheBounds :=
  fun s sp pv h => ⟨_, _, exec_calculate s sp pv, rfl, clamp_within _ h⟩

/-- Settles O31: `Kd = 0` makes the derivative term zero, whatever the quotient drawn. -/
theorem zeroKdHidesTheDrawnQuotient : Obligations.ZeroKdHidesTheDrawnQuotient := by
  intro s sp pv hdt hkd
  have hnoterm : ∀ a q : Word, add32 a (mul s.regs.kd q) = a := fun a q => by simp [hkd, add32_eq]
  rw [exec_calculate_of_dt_eq_zero sp pv hdt, hnoterm]

/-- Settles O33: the first `CALC` leaves the error in `PrevError`, so the second one divides zero by `Dt`. -/
theorem repeatedErrorHasNoDerivativeTerm : Obligations.RepeatedErrorHasNoDerivativeTerm := by
  intro s t sp pv hdt hfirst
  have hregs := regs_of_exec hfirst
  have htdt : t.regs.dt = s.regs.dt := by rw [hregs]; rfl
  have hquotient : calcQuotient t sp pv = 0#32 := by
    have hprev : t.regs.prevError = sub32 sp pv := by rw [hregs]; rfl
    rw [calcQuotient_of_dt_ne_zero sp pv (htdt ▸ hdt), hprev]
    simp [sub32_eq, divNonzero, wrap32]
  have houtput : calcOutput t.regs 0#32 sp pv = clamp (add32 (mul s.regs.kp (sub32 sp pv))
      (mul s.regs.ki (regsAfter (.calculate sp pv) t.regs).integral)) s.regs.min s.regs.max := by
    simp [calcOutput, add32_eq, hregs, regsAfter]
  exact ⟨_, exec_calculate t sp pv, by simp [State.answered, hquotient, houtput]⟩

end

section
/-! PROOF. What reaches the accumulator and what reaches the output of a `CALC`: no gain or bound reaches `Dt`,
`Integral` or `PrevError` (41_pid_controller.md R87, R92), and without overflow every value is the exact law's
(R66, R130). -/

namespace Sys2Proof.Machine

/-! ### What reaches the accumulator (R87, R92) -/

/-- Two records agree in `Dt`, `Integral` and `PrevError`, whatever their gains and bounds. -/
structure SameAccumulator (x y : Regs) : Prop where
  dt : x.dt = y.dt
  integral : x.integral = y.integral
  prevError : x.prevError = y.prevError

/-- What a `CALC` leaves in `Integral` depends on `Dt` and `Integral` alone; `PrevError` becomes its error (D15). -/
theorem regsAfter_calculate_sameAccumulator {x y : Regs} (sp pv : Word) (hdt : x.dt = y.dt)
    (hintegral : x.integral = y.integral) :
    SameAccumulator (regsAfter (.calculate sp pv) x) (regsAfter (.calculate sp pv) y) where
  dt := hdt
  integral := by simp only [regsAfter, hdt, hintegral]
  prevError := rfl

/-- Writing one value to the same register of both keeps the agreement. -/
theorem SameAccumulator.write {x y : Regs} (h : SameAccumulator x y) (q : Reg) (v : Word) :
    SameAccumulator (x.write q v) (y.write q v) := by
  obtain ⟨hdt, hintegral, hprev⟩ := h
  cases q with
  | dt => exact ⟨rfl, hintegral, hprev⟩
  | integral => exact ⟨hdt, rfl, hprev⟩
  | prevError => exact ⟨hdt, hintegral, rfl⟩
  | kp | ki | kd | max | min => exact ⟨hdt, hintegral, hprev⟩

/-- No instruction carries a gain or a bound into `Dt`, `Integral` or `PrevError` (R92, D15). -/
theorem SameAccumulator.regsAfter {x y : Regs} (h : SameAccumulator x y) (i : Instr) :
    SameAccumulator (regsAfter i x) (regsAfter i y) := by
  cases i with
  | init => exact ⟨rfl, rfl, rfl⟩
  | wr k v =>
    cases hk : Reg.ofIndex k with
    | some q => simpa only [regsAfter_wr_some v _ hk] using h.write q v
    | none => simpa only [regsAfter_wr_none v _ hk] using h
  | calculate sp pv => exact regsAfter_calculate_sameAccumulator sp pv h.dt h.integral
  | rd _ | fromint _ | frac _ | mul _ _ | div _ _ => exact h

/-- Two controllers with the same word at the port take it, and an agreement between them stays. -/
theorem step_keeps_sameAccumulator {s₁ s₂ : State} {w : Command} {rest : List HostEvent}
    (hp₁ : s₁.pending = .command w :: rest) (hp₂ : s₂.pending = .command w :: rest)
    (h : SameAccumulator s₁.regs s₂.regs) :
    ∃ t₁ t₂, step s₁ = .next t₁ ∧ step s₂ = .next t₂ ∧ t₁.pending = rest ∧ t₂.pending = rest ∧
      SameAccumulator t₁.regs t₂.regs := by
  cases hw : decode w with
  | error e =>
    rw [step_of_command hp₁, step_of_command hp₂, hw]
    exact ⟨_, _, rfl, rfl, rfl, rfl, h⟩
  | ok i =>
    obtain ⟨t₁, hstep₁, hrest₁, hregs₁⟩ := step_of_decode hp₁ hw
    obtain ⟨t₂, hstep₂, hrest₂, hregs₂⟩ := step_of_decode hp₂ hw
    exact ⟨t₁, t₂, hstep₁, hstep₂, hrest₁, hrest₂, hregs₁ ▸ hregs₂ ▸ h.regsAfter i⟩

/-- Two controllers that agree run one program of commands to agreement. -/
theorem run_keeps_sameAccumulator {p : List Command} {s₁ s₂ : State} (hp₁ : s₁.pending = p.map .command)
    (hp₂ : s₂.pending = p.map .command) (h : SameAccumulator s₁.regs s₂.regs) :
    ∃ t₁ t₂ : State, Host.Core.run Sys2Proof.core p.length s₁ = .next t₁ ∧
      Host.Core.run Sys2Proof.core p.length s₂ = .next t₂ ∧ SameAccumulator t₁.regs t₂.regs := by
  induction p generalizing s₁ s₂ with
  | nil => exact ⟨s₁, s₂, rfl, rfl, h⟩
  | cons w p ih =>
    obtain ⟨u₁, u₂, hstep₁, hstep₂, hrest₁, hrest₂, hu⟩ := step_keeps_sameAccumulator hp₁ hp₂ h
    obtain ⟨t₁, t₂, hrun₁, hrun₂, ht⟩ := ih hrest₁ hrest₂ hu
    exact ⟨t₁, t₂, (run_succ _ hstep₁).trans hrun₁, (run_succ _ hstep₂).trans hrun₂, ht⟩

/-! ### The narrowed operations where nothing overflows (R65, R66) -/

/-- Narrowing loses nothing of an integer that fits a word. -/
theorem toInt_wrap32_of_fits_true {z : Int} (h : fits z = true) : (wrap32 z).toInt = z := by
  obtain ⟨hlow, hhigh⟩ := of_decide_eq_true h
  exact toInt_wrap32_of_fits hlow hhigh

/-- A sum of three words is narrowed once, whatever the sum of the first two does. -/
theorem add32_add32_eq_wrap32 (a b c : Word) : add32 (add32 a b) c = wrap32 (a.toInt + b.toInt + c.toInt) := by
  simp [add32_eq, wrap32, BitVec.ofInt_add]

/-- The clamp's answer on the signed values. -/
theorem toInt_clamp (s lo hi : Word) : (clamp s lo hi).toInt =
    if hi.toInt < s.toInt then hi.toInt else if s.toInt < lo.toInt then lo.toInt else s.toInt := by
  rw [clamp_eq, apply_ite BitVec.toInt, apply_ite BitVec.toInt]

/-- What a `CALC` leaves in `PrevError` and `Integral` and what it outputs, where nothing overflows: the exact law's
values, step for step (R84). -/
theorem calculate_exact {x : Regs} {sp pv : Word} (h : noOverflow x sp pv = true) :
    (sub32 sp pv).toInt = (exactCalc x sp pv).error ∧
    (regsAfter (.calculate sp pv) x).integral.toInt = (exactCalc x sp pv).integral ∧
    (calcOutput x (divNonzero (sub32 (sub32 sp pv) x.prevError) x.dt) sp pv).toInt =
      if x.max.toInt < (exactCalc x sp pv).sum then x.max.toInt
      else if (exactCalc x sp pv).sum < x.min.toInt then x.min.toInt else (exactCalc x sp pv).sum := by
  simp only [noOverflow, Bool.and_eq_true] at h
  obtain ⟨⟨⟨⟨⟨⟨⟨⟨fits_error, fits_pout⟩, fits_gain⟩, fits_integral⟩, fits_iout⟩, fits_change⟩,
    fits_derivative⟩, fits_dout⟩, fits_sum⟩ := h
  have herror : (sub32 sp pv).toInt = (exactCalc x sp pv).error := toInt_wrap32_of_fits_true fits_error
  have hpout : (mul x.kp (sub32 sp pv)).toInt = (exactCalc x sp pv).pout := by
    rw [mul, herror]
    exact toInt_wrap32_of_fits_true fits_pout
  have hgain : (mul (sub32 sp pv) x.dt).toInt = (exactCalc x sp pv).error * x.dt.toInt / 65536 := by
    rw [mul, herror]
    exact toInt_wrap32_of_fits_true fits_gain
  have hintegral : (add32 x.integral (mul (sub32 sp pv) x.dt)).toInt = (exactCalc x sp pv).integral := by
    rw [add32, hgain]
    exact toInt_wrap32_of_fits_true fits_integral
  have hiout : (mul x.ki (add32 x.integral (mul (sub32 sp pv) x.dt))).toInt = (exactCalc x sp pv).iout := by
    rw [mul, hintegral]
    exact toInt_wrap32_of_fits_true fits_iout
  have hchange : (sub32 (sub32 sp pv) x.prevError).toInt = (exactCalc x sp pv).change := by
    rw [sub32, herror]
    exact toInt_wrap32_of_fits_true fits_change
  have hderivative : (divNonzero (sub32 (sub32 sp pv) x.prevError) x.dt).toInt = (exactCalc x sp pv).derivative := by
    rw [divNonzero, hchange]
    exact toInt_wrap32_of_fits_true fits_derivative
  have hdout : (mul x.kd (divNonzero (sub32 (sub32 sp pv) x.prevError) x.dt)).toInt = (exactCalc x sp pv).dout := by
    rw [mul, hderivative]
    exact toInt_wrap32_of_fits_true fits_dout
  have hsum : (wrap32 ((exactCalc x sp pv).pout + (exactCalc x sp pv).iout + (exactCalc x sp pv).dout)).toInt =
      (exactCalc x sp pv).sum := toInt_wrap32_of_fits_true fits_sum
  refine ⟨herror, hintegral, ?_⟩
  rw [calcOutput, toInt_clamp, add32_add32_eq_wrap32, hpout, hiout, hdout, hsum]

end Sys2Proof.Machine

open Sys2Proof Sys2Proof.Machine

/-- Settles O34, by induction on the program: no command carries a gain or a bound into the accumulator. -/
theorem accumulatorIgnoresGainsAndBounds : Obligations.AccumulatorIgnoresGainsAndBounds := by
  refine ⟨fun s₁ s₂ sp pv hdt hintegral => ?_, fun p s₁ s₂ hp₁ hp₂ hdt hintegral hprev => ?_⟩
  · have h := regsAfter_calculate_sameAccumulator sp pv hdt hintegral
    exact ⟨_, _, exec_calculate s₁ sp pv, exec_calculate s₂ sp pv, h.integral, h.prevError⟩
  · obtain ⟨t₁, t₂, hrun₁, hrun₂, h⟩ := run_keeps_sameAccumulator (p := p) (s₁ := s₁.present p) (s₂ := s₂.present p)
      (by simp [hp₁]) (by simp [hp₂]) ⟨hdt, hintegral, hprev⟩
    exact ⟨t₁, t₂, hrun₁, hrun₂, h.dt, h.integral, h.prevError⟩

/-- Settles O36: step for step, what fits a word is narrowed without loss. -/
theorem calcIsExactWhenNothingOverflows : Obligations.CalcIsExactWhenNothingOverflows := by
  intro s sp pv hdt hfits
  obtain ⟨herror, hintegral, houtput⟩ := calculate_exact hfits
  exact ⟨_, _, exec_calculate_of_dt_ne_zero sp pv hdt, rfl, herror, hintegral, houtput⟩

end

section
/-! PROOF. The one refusal and hardware reset (60_exceptions.md R100 to R105; 70_reset_and_hazards.md R111, R120, R121): an
illegal word leaves nothing behind but its response, so a program runs as it does without its illegal words. -/

namespace Sys2Proof.Machine

variable {s u : State} {w : Command} {rest rest' : List HostEvent}

/-! ### Reset and idleness (R111, R120, R121) -/

/-- A step with nothing at the port changes nothing (R111, R121). -/
theorem step_of_idle (hp : s.pending = []) : step s = .next s := by simp [step, State.fetch, hp]

/-- A step with a reset at the port zeroes the registers and drops the command in flight (R103, R120). -/
theorem step_of_reset {inFlight : Option Command} (hp : s.pending = .reset inFlight :: rest) :
    step s = .next (hardwareReset (s.took (.reset inFlight) rest)) := by
  simp [step, State.fetch, hp, accept_of_pending hp, State.took]

/-! ### Illegal words leave no trace (R104, R105) -/

/-- Two states with the same registers and the same draws made: every command does the same to both (R22). -/
structure SameRegsAndDraws (s u : State) : Prop where
  regs : s.regs = u.regs
  draws : s.draws = u.draws

/-- An illegal word at the port changes no register, draws nothing and is answered with `ok = 0` (R101, R104). -/
theorem step_of_illegal (hp : s.pending = .command w :: rest) (hw : isLegal w = false) :
    ∃ t, step s = .next t ∧ t.pending = rest ∧ SameRegsAndDraws t s ∧ t.responses = s.responses ++ [⟨false, 0#32⟩] := by
  rw [step_of_command hp, (isLegal_eq_false_iff w).1 hw]
  exact ⟨_, rfl, rfl, ⟨rfl, rfl⟩, rfl⟩

/-- A legal word at both ports does the same to both states and gives the same response, with `ok = 1` (R22, R50). -/
theorem step_legal_congr (hs : s.pending = .command w :: rest) (hu : u.pending = .command w :: rest')
    (hw : isLegal w = true) (h : SameRegsAndDraws s u) :
    ∃ t v r, step s = .next t ∧ step u = .next v ∧ t.pending = rest ∧ v.pending = rest' ∧ SameRegsAndDraws t v ∧
      r.ok = true ∧ t.responses = s.responses ++ [r] ∧ v.responses = u.responses ++ [r] := by
  obtain ⟨i, hd⟩ := (isLegal_eq_true_iff w).1 hw
  have hregs : (s.took (.command w) rest).regs = (u.took (.command w) rest').regs := h.regs
  have hdraws : (s.took (.command w) rest).draws = (u.took (.command w) rest').draws := h.draws
  have hresp := responseTo_congr i _ _ hregs (.inr hdraws)
  rw [step_of_command hs, step_of_command hu, hd]
  refine ⟨_, _, _, exec_eq i _, exec_eq i _, rfl, rfl, ⟨congrArg (regsAfter i) hregs, ?_⟩, ?_, rfl, ?_⟩
  · rw [hregs, hdraws]
  · rw [responseTo_ok, wellFormed_of_decode hd]
  · rw [hresp]
    rfl

/-- A program and the program without its illegal words do the same, and the second gives the `ok = 1` responses of the
first (R104, R105). -/
theorem run_filter_isLegal {p : List Command} (hs : s.pending = p.map .command)
    (hu : u.pending = (p.filter isLegal).map .command) (h : SameRegsAndDraws s u) :
    ∃ t v : State, Host.Core.run Sys2Proof.core p.length s = .next t ∧
      Host.Core.run Sys2Proof.core (p.filter isLegal).length u = .next v ∧ SameRegsAndDraws t v ∧
      ∃ rs, t.responses = s.responses ++ rs ∧ v.responses = u.responses ++ rs.filter (·.ok) := by
  induction p generalizing s u with
  | nil => exact ⟨s, u, rfl, rfl, h, [], by simp, by simp⟩
  | cons w p ih =>
    cases hw : isLegal w with
    | false =>
      rw [List.filter_cons_of_neg (Bool.eq_false_iff.1 hw)] at hu ⊢
      obtain ⟨s', hstep, hs', ⟨hregs, hdraws⟩, hresp⟩ := step_of_illegal hs hw
      obtain ⟨t, v, hrun, hrunv, htv, rs, ht, hv⟩ := ih hs' hu ⟨hregs.trans h.regs, hdraws.trans h.draws⟩
      exact ⟨t, v, (run_succ _ hstep).trans hrun, hrunv, htv, ⟨false, 0#32⟩ :: rs, by simp [ht, hresp], by simp [hv]⟩
    | true =>
      rw [List.filter_cons_of_pos hw] at hu ⊢
      obtain ⟨s', u', r, hstep, hstepu, hs', hu', h', hok, hresp, hrespu⟩ := step_legal_congr hs hu hw h
      obtain ⟨t, v, hrun, hrunv, htv, rs, ht, hv⟩ := ih hs' hu' h'
      exact ⟨t, v, (run_succ _ hstep).trans hrun, (run_succ _ hstepu).trans hrunv, htv, r :: rs, by simp [ht, hresp],
        by simp [hv, hrespu, hok]⟩

end Sys2Proof.Machine

open Sys2Proof Sys2Proof.Machine

/-- Settles O38, by what a step can do: each of its cases answers a next state. -/
theorem everyStepAnswersANextState : Obligations.EveryStepAnswersANextState := step_next

/-- Settles O51, by induction on the program: an illegal word adds one `ok = 0` response, and a legal one does the same in
both runs. -/
theorem illegalCommandsLeaveNoTrace : Obligations.IllegalCommandsLeaveNoTrace := by
  intro p s hs
  obtain ⟨t, v, hrun, hrunv, htv, rs, ht, hv⟩ := run_filter_isLegal (p := p) (s := s.present p)
    (u := s.present (p.filter isLegal)) (by simp [hs]) (by simp [hs]) ⟨rfl, rfl⟩
  exact ⟨t, v, hrun, hrunv, htv.regs, htv.draws, rs, rs.filter (·.ok), ht, hv, rfl⟩

/-- Settles O40, by what a step with nothing at the port does. -/
theorem anIdleBlockDoesNothing : Obligations.AnIdleBlockDoesNothing := fun _ hp => step_of_idle hp

/-- Settles O41: reset and `INIT` both leave the zero record, and reset takes its event without a response. -/
theorem hardwareResetZeroesEveryRegister : Obligations.HardwareResetZeroesEveryRegister :=
  fun s _ _ hp => ⟨_, _, step_of_reset hp, exec_init s, rfl, rfl, rfl, rfl, rfl, rfl⟩

end

section
/-! PROOF. Bring-up and what the hardware does not check (70_reset_and_hazards.md R123, R124, R129): the configuration
writes may come in any order, a `CALC` on the zero record answers zero, and crossed bounds hide the sum. -/

namespace Sys2Proof.Machine

/-- Writes of different registers commute on the record (R34). -/
theorem write_write_comm (x : Regs) {q r : Reg} (u v : Word) (h : q ≠ r) :
    (x.write q u).write r v = (x.write r v).write q u := by
  apply regs_ext_read
  intro p
  rcases eq_or_ne p r with rfl | hr
  · rw [read_write_same, read_write_other _ _ _ _ h.symm, read_write_same]
  · rw [read_write_other _ _ _ _ hr]
    rcases eq_or_ne p q with rfl | hq
    · rw [read_write_same, read_write_same]
    · rw [read_write_other _ _ _ _ hq, read_write_other _ _ _ _ hq, read_write_other _ _ _ _ hr]

/-- Only the zero record holds eight zeros (R81). -/
theorem eq_zero_of_toList {x : Regs} (h : x.toList = List.replicate 8 0#32) : x = Regs.zero := by
  apply regs_ext_read
  intro r
  have hread := read_eq_toList x r
  rw [h] at hread
  exact Option.some.inj (hread.symm.trans (read_eq_toList Regs.zero r))

/-- `CALC` executed on the zero record: only the error and the response are stored, and the drawn quotient reaches
neither (R124). -/
theorem exec_calculate_of_zero {s : State} (sp pv : Word) (h : s.regs = Regs.zero) : exec (.calculate sp pv) s =
    .next (s.answered { Regs.zero with prevError := sub32 sp pv } (s.draws + 1) true 0#32) := by
  have hclamp : clamp 0#32 0#32 0#32 = 0#32 := by decide
  rw [zeroKdHidesTheDrawnQuotient s sp pv (by rw [h]; rfl) (by rw [h]; rfl), h]
  simp [Regs.zero, add32_eq, hclamp]

end Sys2Proof.Machine

open Sys2Proof Sys2Proof.Machine

/-- Settles O53: both orders leave the same record and give the same two responses. -/
theorem writesOfDifferentRegistersCommute : Obligations.WritesOfDifferentRegistersCommute := by
  intro s q r u v hqr
  refine ⟨_, _, _, _, exec_wr_index s q u, exec_wr_index _ r v, exec_wr_index s r v, exec_wr_index _ q u, ?_⟩
  simp only [State.answered, write_write_comm s.regs u v hqr]

/-- Settles O30: the response is a clamped sum, and crossed bounds never let the sum through. -/
theorem calcWithMinAboveMaxNeverReturnsTheSum : Obligations.CalcWithMinAboveMaxNeverReturnsTheSum := by
  intro s sp pv hcrossed
  obtain ⟨hbound, hnotSum⟩ := clamp_crossed _ hcrossed
  refine ⟨_, _, _, exec_calculate s sp pv, rfl, ?_, calcQuotient_of_dt_ne_zero sp pv, rfl, hnotSum⟩
  rw [calcOutput, hbound]
  exact ite_eq_or_eq _ _ _

/-- Settles O32: `INIT` and hardware reset leave the zero record, the machine starts with it, and `CALC` answers zero on
it. -/
theorem calcStraightAfterInitRespondsZero : Obligations.CalcStraightAfterInitRespondsZero := by
  refine ⟨fun t sp pv hzero => exec_calculate_of_zero sp pv (eq_zero_of_toList hzero), fun s t hinit => ?_,
    fun s t inFlight rest hp hstep => ?_, rfl⟩
  · rw [regs_of_exec hinit]
    rfl
  · rw [step_of_reset hp] at hstep
    rw [← Host.Outcome.next.inj hstep]
    rfl

end
